-- ==== Sys2Proof/Word.lean ====
section
/-! DEFINITION. The word types of the CORE (00_scope.md R8, R9: XLEN = 32; 20_memory.md R50: bytes of 8 bits). -/

namespace Sys2Proof

/-- A general register, the pc, an address, an ALU operand or an instruction word (R6, R9, R80): 32 bits, no signedness. -/
abbrev Word := BitVec 32

/-- One memory cell (R27, R50). -/
abbrev Byte := BitVec 8

/-- A register index: a 5-bit field of the instruction word, so every index an instruction can name exists (R20, R82). -/
abbrev RegIdx := BitVec 5

end Sys2Proof
end

