-- ==== Sys2Proof/Config.lean ====
section
/-! DEFINITION. The implementation parameters the spec leaves OPEN (00_scope.md R6): MEM_SIZE, RESET_X, RESET_PC, MEM_INIT.
IFETCH, the fifth, is not a value: the model's `stepWord` takes any instruction word (log 4). The hardware has no free
value (93_implementation_defined.md: nothing is `any value` after the parameters are fixed), so nothing here is opaque. -/

namespace Sys2Proof

/-- The OPEN parameters of R6. A claim for every start quantifies over them (R38, R271). -/
structure Config where
  /-- MEM_SIZE, the number of memory bytes (R6, R27, D3). -/
  memSize : Nat
  /-- RESET_X: the values of x1 to x31 after reset. Entry 0 is not used: x[0] resets to zero (R38). -/
  resetX : Vector Word 32
  /-- RESET_PC (R38). -/
  resetPc : Word
  /-- MEM_INIT, as (address, byte) pairs: a cell not named has the default 0x00, a cell named twice has the later value, a
  pair outside the memory names no cell (R38, R50). -/
  memInit : List Host.Cell
  deriving DecidableEq, Repr

/-- The constraint R6 puts on MEM_SIZE: 1 <= MEM_SIZE <= 2^32. -/
abbrev Config.wf (c : Config) : Prop := 1 ≤ c.memSize ∧ c.memSize ≤ 2 ^ 32

/-- The default parameters: the zeros of R38, and MEM_SIZE = 0x10000, the size of the spec's own vectors (95_test_vectors.md).
DESIGN CHOICE (logs 1 and 2): R6 gives MEM_SIZE no default. -/
def Config.default : Config where
  memSize := 0x10000
  resetX := Vector.replicate 32 0#32
  resetPc := 0#32
  memInit := []

end Sys2Proof
end

