-- ==== Sys2Proof/Syntax.lean ====
section
/-! DEFINITION. The 36 instructions (00_scope.md R2), one constructor per row of spec/opcode_table.json, in the table's order.
An operand is what the decoded value carries (40_decoder_block.md R121, R122): register indices of 5 bits, the immediate
already reassembled to 32 bits, and for the shift-immediate instructions the 5-bit shift amount (30_encoding.md R91). -/

namespace Sys2Proof

/-- An identified instruction with its operands. -/
inductive Instr where
  -- register-register ALU, opcode 0x33 (41_alu_reg.md)
  | add   (rd rs1 rs2 : RegIdx)
  | sub   (rd rs1 rs2 : RegIdx)
  | sll   (rd rs1 rs2 : RegIdx)
  | slt   (rd rs1 rs2 : RegIdx)
  | sltu  (rd rs1 rs2 : RegIdx)
  | xor   (rd rs1 rs2 : RegIdx)
  | srl   (rd rs1 rs2 : RegIdx)
  | sra   (rd rs1 rs2 : RegIdx)
  | or    (rd rs1 rs2 : RegIdx)
  | and   (rd rs1 rs2 : RegIdx)
  -- register-immediate ALU, opcode 0x13 (42_alu_imm.md)
  | addi  (rd rs1 : RegIdx) (imm : Word)
  | slti  (rd rs1 : RegIdx) (imm : Word)
  | sltiu (rd rs1 : RegIdx) (imm : Word)
  | xori  (rd rs1 : RegIdx) (imm : Word)
  | ori   (rd rs1 : RegIdx) (imm : Word)
  | andi  (rd rs1 : RegIdx) (imm : Word)
  | slli  (rd rs1 : RegIdx) (shamt : BitVec 5)
  | srli  (rd rs1 : RegIdx) (shamt : BitVec 5)
  | srai  (rd rs1 : RegIdx) (shamt : BitVec 5)
  -- loads, opcode 0x03 (43_load.md)
  | lb    (rd rs1 : RegIdx) (imm : Word)
  | lh    (rd rs1 : RegIdx) (imm : Word)
  | lw    (rd rs1 : RegIdx) (imm : Word)
  | lbu   (rd rs1 : RegIdx) (imm : Word)
  | lhu   (rd rs1 : RegIdx) (imm : Word)
  -- stores, opcode 0x23 (44_store.md): rs1 is the base, rs2 the value
  | sb    (rs1 rs2 : RegIdx) (imm : Word)
  | sh    (rs1 rs2 : RegIdx) (imm : Word)
  | sw    (rs1 rs2 : RegIdx) (imm : Word)
  -- branches, opcode 0x63 (45_branch.md)
  | beq   (rs1 rs2 : RegIdx) (offset : Word)
  | bne   (rs1 rs2 : RegIdx) (offset : Word)
  | blt   (rs1 rs2 : RegIdx) (offset : Word)
  | bge   (rs1 rs2 : RegIdx) (offset : Word)
  | bltu  (rs1 rs2 : RegIdx) (offset : Word)
  | bgeu  (rs1 rs2 : RegIdx) (offset : Word)
  -- opcodes 0x37, 0x6F, 0x73 (46_lui.md, 47_jal.md, 48_system.md)
  | lui   (rd : RegIdx) (imm : Word)
  | jal   (rd : RegIdx) (offset : Word)
  | ecall
  deriving DecidableEq, Repr

end Sys2Proof
end

