-- ==== Sys2Proof/WellFormed.lean ====
section
/-! DEFINITION. Which instructions a word can encode: the range of each immediate layout (30_encoding.md R86 to R90). Register
indices and shift amounts are 5-bit fields, so every value of them is encodable (R82, R91). -/

namespace Sys2Proof

/-- imm_I and imm_S: -2048 to +2047 (R86, R87). -/
def fits12 (imm : Word) : Bool := decide (-2048 ≤ imm.toInt) && decide (imm.toInt ≤ 2047)

/-- imm_SB: -4096 to +4094, always even (R88). -/
def fitsBranch (imm : Word) : Bool :=
  decide (-4096 ≤ imm.toInt) && decide (imm.toInt ≤ 4094) && decide (imm.toNat % 2 = 0)

/-- imm_U: every multiple of 4096 (R89). -/
def fitsUpper (imm : Word) : Bool := decide (imm.toNat % 4096 = 0)

/-- imm_UJ: -1048576 to +1048574, always even (R90). -/
def fitsJump (imm : Word) : Bool :=
  decide (-1048576 ≤ imm.toInt) && decide (imm.toInt ≤ 1048574) && decide (imm.toNat % 2 = 0)

/-- The instruction is one that some word encodes. -/
def Instr.wellFormed : Instr → Bool
  | .add _ _ _ | .sub _ _ _ | .sll _ _ _ | .slt _ _ _ | .sltu _ _ _ => true
  | .xor _ _ _ | .srl _ _ _ | .sra _ _ _ | .or _ _ _ | .and _ _ _ => true
  | .addi _ _ imm | .slti _ _ imm | .sltiu _ _ imm => fits12 imm
  | .xori _ _ imm | .ori _ _ imm | .andi _ _ imm => fits12 imm
  | .slli _ _ _ | .srli _ _ _ | .srai _ _ _ => true
  | .lb _ _ imm | .lh _ _ imm | .lw _ _ imm | .lbu _ _ imm | .lhu _ _ imm => fits12 imm
  | .sb _ _ imm | .sh _ _ imm | .sw _ _ imm => fits12 imm
  | .beq _ _ off | .bne _ _ off | .blt _ _ off => fitsBranch off
  | .bge _ _ off | .bltu _ _ off | .bgeu _ _ off => fitsBranch off
  | .lui _ imm => fitsUpper imm
  | .jal _ off => fitsJump off
  | .ecall => true

end Sys2Proof
end

