-- ==== Sys2Proof/Decode.lean ====
section
/-! DEFINITION. Block DEC: the decoder (40_decoder_block.md R120 to R123), then the encoder, then the opcode table as rows.
Field positions are 30_encoding.md R82, immediates R86 to R90, the opcode map R93 to R100. The funct values are the ones the
spec's tables give (the spec marks them general knowledge, D9: log 8). -/

namespace Sys2Proof

/-! ### Extension (R10) -/

/-- `sext_N(v)`: bits 31 down to N are copies of bit N-1. -/
def sext {n : Nat} (v : BitVec n) : Word := v.signExtend 32

/-- `zext_N(v)`: the upper bits are zero. -/
def zext {n : Nat} (v : BitVec n) : Word := v.setWidth 32

/-! ### Fields (R82) -/

def opcodeOf (w : Word) : BitVec 7 := w.extractLsb' 0 7
def rdOf     (w : Word) : RegIdx   := w.extractLsb' 7 5
def funct3Of (w : Word) : BitVec 3 := w.extractLsb' 12 3
def rs1Of    (w : Word) : RegIdx   := w.extractLsb' 15 5
def rs2Of    (w : Word) : RegIdx   := w.extractLsb' 20 5
def funct7Of (w : Word) : BitVec 7 := w.extractLsb' 25 7

/-! ### Immediates (R85 to R90) -/

/-- imm_I = sext_12(w[31:20]) (R86). -/
def immI (w : Word) : Word := sext (w.extractLsb' 20 12)

/-- imm_S = sext_12 of w[31:25], w[11:7] (R87). -/
def immS (w : Word) : Word := sext (w.extractLsb' 25 7 ++ w.extractLsb' 7 5)

/-- imm_SB = sext_13 of w[31], w[7], w[30:25], w[11:8], 0 (R88). -/
def immSB (w : Word) : Word :=
  sext (w.extractLsb' 31 1 ++ w.extractLsb' 7 1 ++ w.extractLsb' 25 6 ++ w.extractLsb' 8 4 ++ 0#1)

/-- imm_U = w[31:12] followed by twelve zeros (R89). -/
def immU (w : Word) : Word := w.extractLsb' 12 20 ++ 0#12

/-- imm_UJ = sext_21 of w[31], w[19:12], w[20], w[30:21], 0 (R90). -/
def immUJ (w : Word) : Word :=
  sext (w.extractLsb' 31 1 ++ w.extractLsb' 12 8 ++ w.extractLsb' 20 1 ++ w.extractLsb' 21 10 ++ 0#1)

/-! ### The decoder (R120, R121) -/

/-- The decoded instruction: a tagged value with eight variants, each carrying only the fields meaningful to it (R121). -/
inductive Decoded where
  | r  (opcode : BitVec 7) (rd : RegIdx) (funct3 : BitVec 3) (rs1 rs2 : RegIdx) (funct7 : BitVec 7)
  | i  (opcode : BitVec 7) (rd : RegIdx) (funct3 : BitVec 3) (rs1 : RegIdx) (imm : Word)
  | s  (opcode : BitVec 7) (funct3 : BitVec 3) (rs1 rs2 : RegIdx) (imm : Word)
  | sb (opcode : BitVec 7) (funct3 : BitVec 3) (rs1 rs2 : RegIdx) (imm : Word)
  | u  (opcode : BitVec 7) (rd : RegIdx) (imm : Word)
  | uj (opcode : BitVec 7) (rd : RegIdx) (imm : Word)
  | system (opcode : BitVec 7) (rd : RegIdx) (funct3 : BitVec 3) (rs1 : RegIdx) (imm : Word)
  | unsupported (w : Word)
  deriving DecidableEq, Repr

/-- `decode`: a total function of the word; the variant is chosen by the major opcode alone (R120, R121). -/
def decode (w : Word) : Decoded :=
  let op := opcodeOf w
  if op = 0x33#7 then .r op (rdOf w) (funct3Of w) (rs1Of w) (rs2Of w) (funct7Of w)
  else if op = 0x13#7 ∨ op = 0x03#7 then .i op (rdOf w) (funct3Of w) (rs1Of w) (immI w)
  else if op = 0x23#7 then .s op (funct3Of w) (rs1Of w) (rs2Of w) (immS w)
  else if op = 0x63#7 then .sb op (funct3Of w) (rs1Of w) (rs2Of w) (immSB w)
  else if op = 0x37#7 then .u op (rdOf w) (immU w)
  else if op = 0x6F#7 then .uj op (rdOf w) (immUJ w)
  else if op = 0x73#7 then .system op (rdOf w) (funct3Of w) (rs1Of w) (immI w)
  else .unsupported w

/-- Why a word is not one of the 36 instructions. The machine makes no difference between the first two (R123: where the line
is drawn cannot be observed); the third is for a byte list too short to hold a word (log 9). -/
inductive Reject where
  /-- `unsupported opcode`: none of the eight major opcodes (R101 (a)). -/
  | unsupportedOpcode
  /-- `unsupported opcode/funct combination` (R101 (b) to (g)). -/
  | unsupportedFunct
  /-- fewer than the four bytes of an instruction word (R80). -/
  | truncated
  deriving DecidableEq, Repr

/-- Opcode 0x33, by funct7 and funct3 (R94). -/
def identifyR (funct7 : BitVec 7) (funct3 : BitVec 3) (rd rs1 rs2 : RegIdx) : Except Reject Instr :=
  if funct7 = 0b0000000#7 then
    if funct3 = 0b000#3 then .ok (.add rd rs1 rs2)
    else if funct3 = 0b001#3 then .ok (.sll rd rs1 rs2)
    else if funct3 = 0b010#3 then .ok (.slt rd rs1 rs2)
    else if funct3 = 0b011#3 then .ok (.sltu rd rs1 rs2)
    else if funct3 = 0b100#3 then .ok (.xor rd rs1 rs2)
    else if funct3 = 0b101#3 then .ok (.srl rd rs1 rs2)
    else if funct3 = 0b110#3 then .ok (.or rd rs1 rs2)
    else .ok (.and rd rs1 rs2)
  else if funct7 = 0b0100000#7 then
    if funct3 = 0b000#3 then .ok (.sub rd rs1 rs2)
    else if funct3 = 0b101#3 then .ok (.sra rd rs1 rs2)
    else .error .unsupportedFunct
  else .error .unsupportedFunct

/-- Opcode 0x13, by funct3 and, for the shifts, by imm[11:5], which is w[31:25]; the shift amount is imm[4:0], which is
w[24:20] (R91, R95, R122, R123). -/
def identifyImm (funct3 : BitVec 3) (rd rs1 : RegIdx) (imm : Word) : Except Reject Instr :=
  let upper : BitVec 7 := imm.extractLsb' 5 7
  let shamt : BitVec 5 := imm.extractLsb' 0 5
  if funct3 = 0b000#3 then .ok (.addi rd rs1 imm)
  else if funct3 = 0b010#3 then .ok (.slti rd rs1 imm)
  else if funct3 = 0b011#3 then .ok (.sltiu rd rs1 imm)
  else if funct3 = 0b100#3 then .ok (.xori rd rs1 imm)
  else if funct3 = 0b110#3 then .ok (.ori rd rs1 imm)
  else if funct3 = 0b111#3 then .ok (.andi rd rs1 imm)
  else if funct3 = 0b001#3 then
    if upper = 0b0000000#7 then .ok (.slli rd rs1 shamt) else .error .unsupportedFunct
  else
    if upper = 0b0000000#7 then .ok (.srli rd rs1 shamt)
    else if upper = 0b0100000#7 then .ok (.srai rd rs1 shamt)
    else .error .unsupportedFunct

/-- Opcode 0x03, by funct3 (R96). -/
def identifyLoad (funct3 : BitVec 3) (rd rs1 : RegIdx) (imm : Word) : Except Reject Instr :=
  if funct3 = 0b000#3 then .ok (.lb rd rs1 imm)
  else if funct3 = 0b001#3 then .ok (.lh rd rs1 imm)
  else if funct3 = 0b010#3 then .ok (.lw rd rs1 imm)
  else if funct3 = 0b100#3 then .ok (.lbu rd rs1 imm)
  else if funct3 = 0b101#3 then .ok (.lhu rd rs1 imm)
  else .error .unsupportedFunct

/-- Opcode 0x23, by funct3 (R97). -/
def identifyStore (funct3 : BitVec 3) (rs1 rs2 : RegIdx) (imm : Word) : Except Reject Instr :=
  if funct3 = 0b000#3 then .ok (.sb rs1 rs2 imm)
  else if funct3 = 0b001#3 then .ok (.sh rs1 rs2 imm)
  else if funct3 = 0b010#3 then .ok (.sw rs1 rs2 imm)
  else .error .unsupportedFunct

/-- Opcode 0x63, by funct3 (R98). -/
def identifyBranch (funct3 : BitVec 3) (rs1 rs2 : RegIdx) (imm : Word) : Except Reject Instr :=
  if funct3 = 0b000#3 then .ok (.beq rs1 rs2 imm)
  else if funct3 = 0b001#3 then .ok (.bne rs1 rs2 imm)
  else if funct3 = 0b100#3 then .ok (.blt rs1 rs2 imm)
  else if funct3 = 0b101#3 then .ok (.bge rs1 rs2 imm)
  else if funct3 = 0b110#3 then .ok (.bltu rs1 rs2 imm)
  else if funct3 = 0b111#3 then .ok (.bgeu rs1 rs2 imm)
  else .error .unsupportedFunct

/-- `identify`: which of the 36 instructions the decoded value is, with its operands, or UNSUPPORTED (R123). -/
def identify : Decoded → Except Reject Instr
  | .r _ rd funct3 rs1 rs2 funct7 => identifyR funct7 funct3 rd rs1 rs2
  | .i opcode rd funct3 rs1 imm =>
    if opcode = 0x13#7 then identifyImm funct3 rd rs1 imm else identifyLoad funct3 rd rs1 imm
  | .s _ funct3 rs1 rs2 imm => identifyStore funct3 rs1 rs2 imm
  | .sb _ funct3 rs1 rs2 imm => identifyBranch funct3 rs1 rs2 imm
  | .u _ rd imm => .ok (.lui rd imm)
  | .uj _ rd imm => .ok (.jal rd imm)
  | .system _ rd funct3 rs1 imm =>
    if rd = 0#5 ∧ funct3 = 0b000#3 ∧ rs1 = 0#5 ∧ imm = 0#32 then .ok .ecall else .error .unsupportedFunct
  | .unsupported _ => .error .unsupportedOpcode

/-- The instruction a word is: `identify(decode(w))` (R123, R230). -/
def decodeInstr (w : Word) : Except Reject Instr := identify (decode w)

/-! ### Words and bytes (R53, R66: little-endian) -/

/-- Byte `i` of a word, byte 0 the least significant. -/
def byteOf (v : Word) (i : Nat) : Byte := (v >>> (8 * i)).setWidth 8

/-- The word whose least significant byte is `b0`. -/
def wordOfBytes (b0 b1 b2 b3 : Byte) : Word := b3 ++ b2 ++ b1 ++ b0

/-- A word as it stands in memory, lowest address first. -/
def bytesOfWord (w : Word) : List Byte := [byteOf w 0, byteOf w 1, byteOf w 2, byteOf w 3]

/-- The decoder on a byte sequence: one instruction is four bytes, lowest address first (R80, R66). -/
def decodeBytes : List Byte → Except Reject Instr
  | b0 :: b1 :: b2 :: b3 :: _ => decodeInstr (wordOfBytes b0 b1 b2 b3)
  | _ => .error .truncated

/-- The word an opcode-table row of `nbits` bits with the bits `w` stands for; the bits above `nbits` are zero. -/
def tableWord (nbits w : Nat) : Word := BitVec.ofNat 32 (w % 2 ^ nbits)

/-- The instruction the decoder reads from the table's word, laid out in memory as R66 reads it. -/
def decodeTableWord (nbits w : Nat) : Option Instr :=
  match decodeBytes (bytesOfWord (tableWord nbits w)) with
  | .ok i => some i
  | .error _ => none

/-! ### The encoder (formats R81, immediates R92, opcode map R93 to R100) -/

def encR (funct7 : BitVec 7) (rs2 rs1 : RegIdx) (funct3 : BitVec 3) (rd : RegIdx) (opcode : BitVec 7) : Word :=
  funct7 ++ rs2 ++ rs1 ++ funct3 ++ rd ++ opcode

def encI (imm : Word) (rs1 : RegIdx) (funct3 : BitVec 3) (rd : RegIdx) (opcode : BitVec 7) : Word :=
  imm.extractLsb' 0 12 ++ rs1 ++ funct3 ++ rd ++ opcode

def encS (imm : Word) (rs2 rs1 : RegIdx) (funct3 : BitVec 3) (opcode : BitVec 7) : Word :=
  imm.extractLsb' 5 7 ++ rs2 ++ rs1 ++ funct3 ++ imm.extractLsb' 0 5 ++ opcode

def encSB (imm : Word) (rs2 rs1 : RegIdx) (funct3 : BitVec 3) (opcode : BitVec 7) : Word :=
  imm.extractLsb' 12 1 ++ imm.extractLsb' 5 6 ++ rs2 ++ rs1 ++ funct3 ++ imm.extractLsb' 1 4 ++ imm.extractLsb' 11 1 ++ opcode

def encU (imm : Word) (rd : RegIdx) (opcode : BitVec 7) : Word := imm.extractLsb' 12 20 ++ rd ++ opcode

def encUJ (imm : Word) (rd : RegIdx) (opcode : BitVec 7) : Word :=
  imm.extractLsb' 20 1 ++ imm.extractLsb' 1 10 ++ imm.extractLsb' 11 1 ++ imm.extractLsb' 12 8 ++ rd ++ opcode

/-- The word of a well-formed instruction. -/
def encode : Instr → Word
  | .add rd rs1 rs2  => encR 0b0000000#7 rs2 rs1 0b000#3 rd 0b0110011#7
  | .sub rd rs1 rs2  => encR 0b0100000#7 rs2 rs1 0b000#3 rd 0b0110011#7
  | .sll rd rs1 rs2  => encR 0b0000000#7 rs2 rs1 0b001#3 rd 0b0110011#7
  | .slt rd rs1 rs2  => encR 0b0000000#7 rs2 rs1 0b010#3 rd 0b0110011#7
  | .sltu rd rs1 rs2 => encR 0b0000000#7 rs2 rs1 0b011#3 rd 0b0110011#7
  | .xor rd rs1 rs2  => encR 0b0000000#7 rs2 rs1 0b100#3 rd 0b0110011#7
  | .srl rd rs1 rs2  => encR 0b0000000#7 rs2 rs1 0b101#3 rd 0b0110011#7
  | .sra rd rs1 rs2  => encR 0b0100000#7 rs2 rs1 0b101#3 rd 0b0110011#7
  | .or rd rs1 rs2   => encR 0b0000000#7 rs2 rs1 0b110#3 rd 0b0110011#7
  | .and rd rs1 rs2  => encR 0b0000000#7 rs2 rs1 0b111#3 rd 0b0110011#7
  | .addi rd rs1 imm  => encI imm rs1 0b000#3 rd 0b0010011#7
  | .slti rd rs1 imm  => encI imm rs1 0b010#3 rd 0b0010011#7
  | .sltiu rd rs1 imm => encI imm rs1 0b011#3 rd 0b0010011#7
  | .xori rd rs1 imm  => encI imm rs1 0b100#3 rd 0b0010011#7
  | .ori rd rs1 imm   => encI imm rs1 0b110#3 rd 0b0010011#7
  | .andi rd rs1 imm  => encI imm rs1 0b111#3 rd 0b0010011#7
  | .slli rd rs1 shamt => encR 0b0000000#7 shamt rs1 0b001#3 rd 0b0010011#7
  | .srli rd rs1 shamt => encR 0b0000000#7 shamt rs1 0b101#3 rd 0b0010011#7
  | .srai rd rs1 shamt => encR 0b0100000#7 shamt rs1 0b101#3 rd 0b0010011#7
  | .lb rd rs1 imm  => encI imm rs1 0b000#3 rd 0b0000011#7
  | .lh rd rs1 imm  => encI imm rs1 0b001#3 rd 0b0000011#7
  | .lw rd rs1 imm  => encI imm rs1 0b010#3 rd 0b0000011#7
  | .lbu rd rs1 imm => encI imm rs1 0b100#3 rd 0b0000011#7
  | .lhu rd rs1 imm => encI imm rs1 0b101#3 rd 0b0000011#7
  | .sb rs1 rs2 imm => encS imm rs2 rs1 0b000#3 0b0100011#7
  | .sh rs1 rs2 imm => encS imm rs2 rs1 0b001#3 0b0100011#7
  | .sw rs1 rs2 imm => encS imm rs2 rs1 0b010#3 0b0100011#7
  | .beq rs1 rs2 off  => encSB off rs2 rs1 0b000#3 0b1100011#7
  | .bne rs1 rs2 off  => encSB off rs2 rs1 0b001#3 0b1100011#7
  | .blt rs1 rs2 off  => encSB off rs2 rs1 0b100#3 0b1100011#7
  | .bge rs1 rs2 off  => encSB off rs2 rs1 0b101#3 0b1100011#7
  | .bltu rs1 rs2 off => encSB off rs2 rs1 0b110#3 0b1100011#7
  | .bgeu rs1 rs2 off => encSB off rs2 rs1 0b111#3 0b1100011#7
  | .lui rd imm => encU imm rd 0b0110111#7
  | .jal rd off => encUJ off rd 0b1101111#7
  | .ecall => 0x00000073#32

/-! ### The opcode table (spec/opcode_table.json): a second reading of the opcode map, by mask and match -/

/-- One row: a word is the row's instruction exactly when `(w & mask) == match` (INDEX.md). -/
structure OpRow where
  mnemonic : String
  mask : Word
  bits : Word
  deriving DecidableEq, Repr

def OpRow.accepts (r : OpRow) (w : Word) : Bool := (w &&& r.mask) == r.bits

def rowsR : List OpRow :=
  [⟨"ADD",  0xFE00707F#32, 0x00000033#32⟩, ⟨"SUB",  0xFE00707F#32, 0x40000033#32⟩,
   ⟨"SLL",  0xFE00707F#32, 0x00001033#32⟩, ⟨"SLT",  0xFE00707F#32, 0x00002033#32⟩,
   ⟨"SLTU", 0xFE00707F#32, 0x00003033#32⟩, ⟨"XOR",  0xFE00707F#32, 0x00004033#32⟩,
   ⟨"SRL",  0xFE00707F#32, 0x00005033#32⟩, ⟨"SRA",  0xFE00707F#32, 0x40005033#32⟩,
   ⟨"OR",   0xFE00707F#32, 0x00006033#32⟩, ⟨"AND",  0xFE00707F#32, 0x00007033#32⟩]

def rowsI : List OpRow :=
  [⟨"ADDI", 0x0000707F#32, 0x00000013#32⟩, ⟨"SLTI", 0x0000707F#32, 0x00002013#32⟩,
   ⟨"SLTIU", 0x0000707F#32, 0x00003013#32⟩, ⟨"XORI", 0x0000707F#32, 0x00004013#32⟩,
   ⟨"ORI",  0x0000707F#32, 0x00006013#32⟩, ⟨"ANDI", 0x0000707F#32, 0x00007013#32⟩,
   ⟨"SLLI", 0xFE00707F#32, 0x00001013#32⟩, ⟨"SRLI", 0xFE00707F#32, 0x00005013#32⟩,
   ⟨"SRAI", 0xFE00707F#32, 0x40005013#32⟩]

def rowsMem : List OpRow :=
  [⟨"LB",  0x0000707F#32, 0x00000003#32⟩, ⟨"LH",  0x0000707F#32, 0x00001003#32⟩,
   ⟨"LW",  0x0000707F#32, 0x00002003#32⟩, ⟨"LBU", 0x0000707F#32, 0x00004003#32⟩,
   ⟨"LHU", 0x0000707F#32, 0x00005003#32⟩, ⟨"SB",  0x0000707F#32, 0x00000023#32⟩,
   ⟨"SH",  0x0000707F#32, 0x00001023#32⟩, ⟨"SW",  0x0000707F#32, 0x00002023#32⟩]

def rowsCtl : List OpRow :=
  [⟨"BEQ",  0x0000707F#32, 0x00000063#32⟩, ⟨"BNE",  0x0000707F#32, 0x00001063#32⟩,
   ⟨"BLT",  0x0000707F#32, 0x00004063#32⟩, ⟨"BGE",  0x0000707F#32, 0x00005063#32⟩,
   ⟨"BLTU", 0x0000707F#32, 0x00006063#32⟩, ⟨"BGEU", 0x0000707F#32, 0x00007063#32⟩,
   ⟨"LUI",  0x0000007F#32, 0x00000037#32⟩, ⟨"JAL",  0x0000007F#32, 0x0000006F#32⟩,
   ⟨"ECALL", 0xFFFFFFFF#32, 0x00000073#32⟩]

/-- The 36 rows, in the table's order. -/
def opcodeRows : List OpRow := rowsR ++ rowsI ++ rowsMem ++ rowsCtl

/-- The mnemonic of an instruction, as the table spells it (R123: the identity). -/
def Instr.mnemonic : Instr → String
  | .add _ _ _ => "ADD" | .sub _ _ _ => "SUB" | .sll _ _ _ => "SLL" | .slt _ _ _ => "SLT" | .sltu _ _ _ => "SLTU"
  | .xor _ _ _ => "XOR" | .srl _ _ _ => "SRL" | .sra _ _ _ => "SRA" | .or _ _ _ => "OR" | .and _ _ _ => "AND"
  | .addi _ _ _ => "ADDI" | .slti _ _ _ => "SLTI" | .sltiu _ _ _ => "SLTIU" | .xori _ _ _ => "XORI"
  | .ori _ _ _ => "ORI" | .andi _ _ _ => "ANDI" | .slli _ _ _ => "SLLI" | .srli _ _ _ => "SRLI" | .srai _ _ _ => "SRAI"
  | .lb _ _ _ => "LB" | .lh _ _ _ => "LH" | .lw _ _ _ => "LW" | .lbu _ _ _ => "LBU" | .lhu _ _ _ => "LHU"
  | .sb _ _ _ => "SB" | .sh _ _ _ => "SH" | .sw _ _ _ => "SW"
  | .beq _ _ _ => "BEQ" | .bne _ _ _ => "BNE" | .blt _ _ _ => "BLT" | .bge _ _ _ => "BGE"
  | .bltu _ _ _ => "BLTU" | .bgeu _ _ _ => "BGEU"
  | .lui _ _ => "LUI" | .jal _ _ => "JAL" | .ecall => "ECALL"

end Sys2Proof
end

