-- ==== Sys2Proof/Machine/State.lean ====
section
/-! DEFINITION. The machine state (10_state.md: the triple (x, pc, M), nothing else, R20 to R31), the fault kinds
(60_exceptions.md R241) and the state after reset (R38). Plain data: every field can be compared and written out. -/

namespace Sys2Proof.Machine

/-- The width of a memory access: 1, 2 or 4 bytes, no other (R54, R59). -/
inductive Width where
  | byte
  | half
  | word
  deriving DecidableEq, Repr

/-- The number of bytes of an access (R54: n in 1, 2, 4). -/
def Width.bytes : Width → Nat
  | .byte => 1
  | .half => 2
  | .word => 4

/-- The memory array M[0] to M[size-1] (R27, R50), `size` the parameter MEM_SIZE. The cells are listed as (address, byte)
pairs in one canonical form (`Memory.wf`): an address not listed reads as 0x00, the default MEM_INIT (R38, logs 1 and 3). -/
structure Memory where
  size : Nat
  cells : List Host.Cell
  deriving DecidableEq, Repr

/-- The canonical form: addresses strictly rising, no cell equal to what an unlisted address reads as, every cell inside the
memory. Equal memories are then equal data. -/
abbrev Memory.wf (m : Memory) : Prop :=
  m.cells.Pairwise (fun c d => c.1 < d.1) ∧ ∀ c ∈ m.cells, c.2 ≠ 0#8 ∧ c.1 < m.size

/-- The constraint on MEM_SIZE (R6). -/
abbrev Memory.sizeOk (m : Memory) : Prop := 1 ≤ m.size ∧ m.size ≤ 2 ^ 32

/-- The fault kinds of R241. A fault leaves the whole state as it was (R244): the outcome carries the record of R242 and the
state is the pre-state. -/
inductive Fault where
  /-- kind 1, raised by `stepWord` for a word that is not one of the 36 instructions; carries the word (R230, R242). Safe:
  the spec itself raises it. -/
  | unsupportedInstruction (w : Word)
  /-- kind 2, raised by `memRead` and `memWrite`, hence by the five loads, the three stores and the fetch of R66; carries the
  effective address and the width (R54, R55, R242). Safe: the spec itself raises it. -/
  | outOfBoundsMemoryAccess (ea : Word) (width : Width)
  /-- kind 3, raised by nothing: the kind keeps its name and its code (R243). Safe. -/
  | misalignedAccess
  deriving DecidableEq, Repr

/-- Reasons the model gives no meaning. None is in use: every one of the 36 instructions has its meaning. -/
inductive Refusal where
  /-- Raised by an arm of `exec` for an instruction without a meaning; no arm does. Safe. -/
  | notModelled (mnemonic : String)
  deriving DecidableEq, Repr

/-- The state: x, pc, M, and the model's own `ecall`. -/
structure State where
  /-- x[0] to x[31] (R20). Cell 0 is never written and never read (R21, R22): `State.readReg`, `State.writeReg`. -/
  regs : Vector Word 32
  /-- the program counter (R25): the address the current instruction is taken to stand at. -/
  pc : Word
  /-- the memory array (R27). -/
  mem : Memory
  /-- NOT state of the spec: the `ecall` output of the step that led here (R34, R226), log 5. No instruction reads it. -/
  ecall : Bool
  deriving DecidableEq, Repr

/-- The machine right after reset (R38, R270) with the default parameters: every register and the pc zero, every cell 0x00.
MEM_SIZE is 0x10000: DESIGN CHOICE (log 1). `State.resetWith` takes any parameters. -/
def State.reset : State where
  regs := Vector.replicate 32 0#32
  pc := Config.default.resetPc
  mem := { size := Config.default.memSize, cells := [] }
  ecall := false

end Sys2Proof.Machine
end

