-- ==== Sys2Proof/Machine/Ops.lean ====
section
/-! DEFINITION. The named operations over registers, memory and the pc (00_scope.md R11): `x[i]`, `x[i] <- v`, `MemRead`,
`MemWrite`, `raise`, and the completion of a step. Every instruction goes through these. -/

namespace Sys2Proof.Machine

abbrev Result := Host.Outcome State Fault Refusal

/-! ### Registers (block RF) -/

/-- `x[i]`: register 0 reads 0x00000000 whatever its cell holds (R21). -/
def State.readReg (s : State) (i : RegIdx) : Word :=
  if i = 0#5 then 0#32 else s.regs[i.toNat]'i.isLt

/-- `x[i] <- v`: a write to register 0 is discarded (R22). -/
def State.writeReg (s : State) (i : RegIdx) (v : Word) : State :=
  if i = 0#5 then s else { s with regs := s.regs.set i.toNat v i.isLt }

/-! ### Memory cells -/

/-- What a cell list holds at an address; an address not listed reads as 0x00 (log 3). -/
def cellByte : List Host.Cell → Nat → Byte
  | [], _ => 0#8
  | (b, w) :: rest, a => if a = b then w else cellByte rest a

/-- Write one cell, keeping the canonical form: writing 0x00 removes the entry. -/
def setCell : List Host.Cell → Nat → Byte → List Host.Cell
  | [], a, v => if v = 0#8 then [] else [(a, v)]
  | (b, w) :: rest, a, v =>
    if a < b then (if v = 0#8 then (b, w) :: rest else (a, v) :: (b, w) :: rest)
    else if a = b then (if v = 0#8 then rest else (a, v) :: rest)
    else (b, w) :: setCell rest a v

/-- M[a] (R51: a read returns the byte last written and changes nothing). -/
def Memory.byte (m : Memory) (a : Nat) : Byte := cellByte m.cells a

/-- M[a] <- v (R51: that cell and nothing else). -/
def Memory.setByte (m : Memory) (a : Nat) (v : Byte) : Memory := { m with cells := setCell m.cells a v }

/-- The sum over i of M[a + i] * 2^(8*i), i from 0 to n-1 (R54): little-endian (R53). -/
def Memory.leValue (m : Memory) : (a n : Nat) → Nat
  | _, 0 => 0
  | a, n + 1 => (m.byte a).toNat + 256 * m.leValue (a + 1) n

/-- M[a + i] <- v[8*i+7 : 8*i] for i from 0 to n-1 (R55). -/
def Memory.storeBytes (m : Memory) (a : Nat) (v : Word) : (n : Nat) → Memory
  | 0 => m
  | n + 1 => (m.storeBytes a v n).setByte (a + n) (byteOf v n)

/-! ### The two primitives -/

/-- The bounds check: a + n <= MEM_SIZE in unbounded integers, never modulo 2^32 (R56). -/
def Memory.inBounds (m : Memory) (addr : Word) (width : Width) : Bool := decide (addr.toNat + width.bytes ≤ m.size)

/-- `MemRead(addr, n)` (R54), the 8n-bit value in the low bits of a word. -/
def memRead (m : Memory) (addr : Word) (width : Width) : Except Fault Word :=
  if m.inBounds addr width then .ok (BitVec.ofNat 32 (m.leValue addr.toNat width.bytes))
  else .error (.outOfBoundsMemoryAccess addr width)

/-- `MemWrite(addr, n, v)` (R55): the check comes before any byte is written. -/
def memWrite (m : Memory) (addr : Word) (width : Width) (v : Word) : Except Fault Memory :=
  if m.inBounds addr width then .ok (m.storeBytes addr.toNat v width.bytes)
  else .error (.outOfBoundsMemoryAccess addr width)

/-! ### How a step ends -/

/-- The step ends `Ok`: the pc is set, the ecall output is 0 (R26, R226). -/
def State.complete (s : State) (pc' : Word) : State := { s with pc := pc', ecall := false }

/-- The step ends `Ok` with the ecall event: `signal ecall` (R11, R226). -/
def State.completeEcall (s : State) (pc' : Word) : State := { s with pc := pc', ecall := true }

/-- `raise K(info)` (R11, R244): taking an exception on this hardware. Nothing is saved, no mode changes, control goes nowhere
(R247); there is no return from one (R248). The state is the pre-state, so the outcome carries the record alone. -/
def raise (f : Fault) : Result := .fault f

/-- pc + 4, modulo 2^32 (R26). -/
def State.pcNext (s : State) : Word := s.pc + 4#32

end Sys2Proof.Machine
end

