-- ==== Sys2Proof/Machine/Operands.lean ====
section
/-! DEFINITION. The operand forms: register, immediate, shift amount, and base plus immediate, the only addressing mode (R57). -/

namespace Sys2Proof.Machine

/-- ea = x[rs1] + imm, modulo 2^32; the base register is never modified (R57). -/
def effectiveAddress (s : State) (rs1 : RegIdx) (imm : Word) : Word := s.readReg rs1 + imm

/-- The second ALU operand of a shift immediate: zext_5(shamt) (R160). -/
def shiftOperand (shamt : BitVec 5) : Word := zext shamt

/-- How a load widens its 8n-bit value to 32 bits (R59, R180). -/
inductive Widening where
  | sign
  | zero
  | asIs
  deriving DecidableEq, Repr

/-- `ext(v)` of R180: sext_8n for LB and LH, zext_8n for LBU and LHU, the value itself for LW. -/
def widen (ext : Widening) (width : Width) (v : Word) : Word :=
  match ext with
  | .sign => sext (v.setWidth (8 * width.bytes))
  | .zero => zext (v.setWidth (8 * width.bytes))
  | .asIs => v

end Sys2Proof.Machine
end

