-- ==== Sys2Proof/Machine/Flags.lean ====
section
/-! DEFINITION. The hardware has no flags (R28): a comparison writes its truth value to a general register or decides a branch.
Here are the truth values it computes: `bool32` (R9) and the condition part of block BRU (R200). -/

namespace Sys2Proof.Machine

/-- 0x00000001 when the condition holds, else 0x00000000 (R9). -/
def bool32 (c : Bool) : Word := if c then 1#32 else 0#32

/-- The six branch conditions (R200). -/
inductive Cond where
  | eq
  | ne
  | lt
  | ge
  | ltu
  | geu
  deriving DecidableEq, Repr

/-- `cond(c, a, b)` (R200): signed or unsigned comparison of the two 32-bit operands. -/
def condHolds (c : Cond) (a b : Word) : Bool :=
  match c with
  | .eq  => decide (a = b)
  | .ne  => !decide (a = b)
  | .lt  => decide (a.toInt < b.toInt)
  | .ge  => decide (a.toInt ≥ b.toInt)
  | .ltu => decide (a.toNat < b.toNat)
  | .geu => decide (a.toNat ≥ b.toNat)

end Sys2Proof.Machine
end

