-- ==== Sys2Proof/Machine/Alu.lean ====
section
/-! DEFINITION. Block ALU (41_alu_reg.md R140): a function of an operation and two 32-bit operands; no state, no flag, no fault. -/

namespace Sys2Proof.Machine

/-- The ten operations (R140). -/
inductive AluOp where
  | add
  | sub
  | sll
  | slt
  | sltu
  | xor
  | srl
  | sra
  | or
  | and
  deriving DecidableEq, Repr

/-- The shift amount: the low five bits of the second operand (R140). -/
def shiftAmount (b : Word) : Nat := (b.extractLsb' 0 5).toNat

/-- `alu(op, a, b)` (R140). -/
def alu (op : AluOp) (a b : Word) : Word :=
  match op with
  | .add  => a + b
  | .sub  => a - b
  | .sll  => a <<< shiftAmount b
  | .slt  => bool32 (decide (a.toInt < b.toInt))
  | .sltu => bool32 (decide (a.toNat < b.toNat))
  | .xor  => a ^^^ b
  | .srl  => a >>> shiftAmount b
  | .sra  => a.sshiftRight (shiftAmount b)
  | .or   => a ||| b
  | .and  => a &&& b

/-- Write a result to x[rd] and go on to pc + 4: the end of every ALU instruction and of LUI (R152, R160, R215). -/
def writeback (rd : RegIdx) (v : Word) (s : State) : Result := .next ((s.writeReg rd v).complete s.pcNext)

end Sys2Proof.Machine
end

