-- ==== Sys2Proof/Machine/AluImm.lean ====
section
/-! DEFINITION. The nine register-immediate ALU instructions, opcode 0x13 (42_alu_imm.md R160 to R169). -/

namespace Sys2Proof.Machine

/-- R160: x[rd] <- alu(op, x[rs1], b) with b the sign-extended immediate or the shift amount; pc <- pc + 4. -/
def aluImm (op : AluOp) (rd rs1 : RegIdx) (b : Word) (s : State) : Result :=
  writeback rd (alu op (s.readReg rs1) b) s

/-- R161 -/
def execAddi (rd rs1 : RegIdx) (imm : Word) (s : State) : Result := aluImm .add rd rs1 imm s
/-- R162 -/
def execSlti (rd rs1 : RegIdx) (imm : Word) (s : State) : Result := aluImm .slt rd rs1 imm s
/-- R163: the immediate is sign-extended, then read as unsigned. -/
def execSltiu (rd rs1 : RegIdx) (imm : Word) (s : State) : Result := aluImm .sltu rd rs1 imm s
/-- R164 -/
def execXori (rd rs1 : RegIdx) (imm : Word) (s : State) : Result := aluImm .xor rd rs1 imm s
/-- R165 -/
def execOri (rd rs1 : RegIdx) (imm : Word) (s : State) : Result := aluImm .or rd rs1 imm s
/-- R166 -/
def execAndi (rd rs1 : RegIdx) (imm : Word) (s : State) : Result := aluImm .and rd rs1 imm s
/-- R167 -/
def execSlli (rd rs1 : RegIdx) (shamt : BitVec 5) (s : State) : Result := aluImm .sll rd rs1 (shiftOperand shamt) s
/-- R168 -/
def execSrli (rd rs1 : RegIdx) (shamt : BitVec 5) (s : State) : Result := aluImm .srl rd rs1 (shiftOperand shamt) s
/-- R169 -/
def execSrai (rd rs1 : RegIdx) (shamt : BitVec 5) (s : State) : Result := aluImm .sra rd rs1 (shiftOperand shamt) s

end Sys2Proof.Machine
end

