-- ==== Sys2Proof/Machine/AluReg.lean ====
section
/-! DEFINITION. The ten register-register ALU instructions, opcode 0x33 (41_alu_reg.md R141 to R150, R152). -/

namespace Sys2Proof.Machine

/-- R152: x[rd] <- alu(op, x[rs1], x[rs2]), both sources from the pre-state; pc <- pc + 4. -/
def aluReg (op : AluOp) (rd rs1 rs2 : RegIdx) (s : State) : Result :=
  writeback rd (alu op (s.readReg rs1) (s.readReg rs2)) s

/-- R141 -/
def execAdd (rd rs1 rs2 : RegIdx) (s : State) : Result := aluReg .add rd rs1 rs2 s
/-- R142 -/
def execSub (rd rs1 rs2 : RegIdx) (s : State) : Result := aluReg .sub rd rs1 rs2 s
/-- R143 -/
def execSll (rd rs1 rs2 : RegIdx) (s : State) : Result := aluReg .sll rd rs1 rs2 s
/-- R144 -/
def execSlt (rd rs1 rs2 : RegIdx) (s : State) : Result := aluReg .slt rd rs1 rs2 s
/-- R145 -/
def execSltu (rd rs1 rs2 : RegIdx) (s : State) : Result := aluReg .sltu rd rs1 rs2 s
/-- R146 -/
def execXor (rd rs1 rs2 : RegIdx) (s : State) : Result := aluReg .xor rd rs1 rs2 s
/-- R147 -/
def execSrl (rd rs1 rs2 : RegIdx) (s : State) : Result := aluReg .srl rd rs1 rs2 s
/-- R148 -/
def execSra (rd rs1 rs2 : RegIdx) (s : State) : Result := aluReg .sra rd rs1 rs2 s
/-- R149 -/
def execOr (rd rs1 rs2 : RegIdx) (s : State) : Result := aluReg .or rd rs1 rs2 s
/-- R150 -/
def execAnd (rd rs1 rs2 : RegIdx) (s : State) : Result := aluReg .and rd rs1 rs2 s

end Sys2Proof.Machine
end

