-- ==== Sys2Proof/Machine/Branch.lean ====
section
/-! DEFINITION. Block BRU's target part and the six branches, opcode 0x63 (45_branch.md R200 to R207). -/

namespace Sys2Proof.Machine

/-- The target part of block BRU: pc + offset when taken, pc + 4 when not, modulo 2^32, relative to the instruction's own pc;
neither alignment nor memory bounds are checked (R200, R207). -/
def branchTarget (taken : Bool) (pc offset : Word) : Word := if taken then pc + offset else pc + 4#32

/-- R207: no register and no memory cell is written; the pc is set exactly once. -/
def branch (c : Cond) (rs1 rs2 : RegIdx) (offset : Word) (s : State) : Result :=
  .next (s.complete (branchTarget (condHolds c (s.readReg rs1) (s.readReg rs2)) s.pc offset))

/-- R201 -/
def execBeq (rs1 rs2 : RegIdx) (offset : Word) (s : State) : Result := branch .eq rs1 rs2 offset s
/-- R202 -/
def execBne (rs1 rs2 : RegIdx) (offset : Word) (s : State) : Result := branch .ne rs1 rs2 offset s
/-- R203 -/
def execBlt (rs1 rs2 : RegIdx) (offset : Word) (s : State) : Result := branch .lt rs1 rs2 offset s
/-- R204 -/
def execBge (rs1 rs2 : RegIdx) (offset : Word) (s : State) : Result := branch .ge rs1 rs2 offset s
/-- R205 -/
def execBltu (rs1 rs2 : RegIdx) (offset : Word) (s : State) : Result := branch .ltu rs1 rs2 offset s
/-- R206 -/
def execBgeu (rs1 rs2 : RegIdx) (offset : Word) (s : State) : Result := branch .geu rs1 rs2 offset s

end Sys2Proof.Machine
end

