-- ==== Sys2Proof/Machine/Jump.lean ====
section
/-! DEFINITION. JAL, opcode 0x6F (47_jal.md R220). -/

namespace Sys2Proof.Machine

/-- R220: x[rd] <- pc + 4; pc <- pc + imm_UJ, both from the pc of the pre-state; the link write is discarded for rd = 0 and
the pc still moves. -/
def execJal (rd : RegIdx) (offset : Word) (s : State) : Result :=
  .next ((s.writeReg rd s.pcNext).complete (branchTarget true s.pc offset))

end Sys2Proof.Machine
end

