-- ==== Sys2Proof/Machine/Load.lean ====
section
/-! DEFINITION. The read path of block LSU and the five loads, opcode 0x03 (43_load.md R180 to R186). -/

namespace Sys2Proof.Machine

/-- R180. The bounds check is made whatever rd is (R181); a fault writes nothing and does not advance the pc (R244). -/
def load (width : Width) (ext : Widening) (rd rs1 : RegIdx) (imm : Word) (s : State) : Result :=
  match memRead s.mem (effectiveAddress s rs1 imm) width with
  | .ok v => writeback rd (widen ext width v) s
  | .error f => raise f

/-- R182 -/
def execLb (rd rs1 : RegIdx) (imm : Word) (s : State) : Result := load .byte .sign rd rs1 imm s
/-- R183 -/
def execLh (rd rs1 : RegIdx) (imm : Word) (s : State) : Result := load .half .sign rd rs1 imm s
/-- R184 -/
def execLw (rd rs1 : RegIdx) (imm : Word) (s : State) : Result := load .word .asIs rd rs1 imm s
/-- R185 -/
def execLbu (rd rs1 : RegIdx) (imm : Word) (s : State) : Result := load .byte .zero rd rs1 imm s
/-- R186 -/
def execLhu (rd rs1 : RegIdx) (imm : Word) (s : State) : Result := load .half .zero rd rs1 imm s

end Sys2Proof.Machine
end

