-- ==== Sys2Proof/Machine/Store.lean ====
section
/-! DEFINITION. The write path of block LSU and the three stores, opcode 0x23 (44_store.md R190 to R193). -/

namespace Sys2Proof.Machine

/-- R190: no register is written; a fault writes no cell at all and does not advance the pc (R244). -/
def store (width : Width) (rs1 rs2 : RegIdx) (imm : Word) (s : State) : Result :=
  match memWrite s.mem (effectiveAddress s rs1 imm) width (s.readReg rs2) with
  | .ok m => .next ({ s with mem := m }.complete s.pcNext)
  | .error f => raise f

/-- R191 -/
def execSb (rs1 rs2 : RegIdx) (imm : Word) (s : State) : Result := store .byte rs1 rs2 imm s
/-- R192 -/
def execSh (rs1 rs2 : RegIdx) (imm : Word) (s : State) : Result := store .half rs1 rs2 imm s
/-- R193 -/
def execSw (rs1 rs2 : RegIdx) (imm : Word) (s : State) : Result := store .word rs1 rs2 imm s

end Sys2Proof.Machine
end

