-- ==== Sys2Proof/Machine/System.lean ====
section
/-! DEFINITION. ECALL, the one instruction of opcode 0x73 (48_system.md R225, R226). -/

namespace Sys2Proof.Machine

/-- R225: `signal ecall; pc <- pc + 4`. Not a trap: no fault, no mode, nothing saved, no register and no cell read or written. -/
def execEcall (s : State) : Result := .next (s.completeEcall s.pcNext)

end Sys2Proof.Machine
end

