-- ==== Sys2Proof/Machine/Upper.lean ====
section
/-! DEFINITION. LUI, opcode 0x37 (46_lui.md R215). -/

namespace Sys2Proof.Machine

/-- R215: x[rd] <- imm_U; pc <- pc + 4. -/
def execLui (rd : RegIdx) (imm : Word) (s : State) : Result := writeback rd imm s

end Sys2Proof.Machine
end

