-- ==== Sys2Proof/Machine/Fetch.lean ====
section
/-! DEFINITION. Where instruction words come from. The CORE does not fetch (20_memory.md R65); this is the spec's closed-system
convention R66: the four bytes at the pc of the same memory, little-endian, bounds-checked, no alignment (log 4). -/

namespace Sys2Proof.Machine

/-- `w <- MemRead(pc, 4)` (R66); out of bounds it raises OutOfBoundsMemoryAccess(pc, 4). -/
def fetch (s : State) : Except Fault Word := memRead s.mem s.pc .word

/-- Out-of-band placement of one instruction word where the next fetch reads it (R36, R273 (3)). If the pc is out of bounds
there is no cell to place it in and the state is unchanged (log 6). -/
def placeFetchWord (s : State) (w : Word) : State :=
  match memWrite s.mem s.pc .word w with
  | .ok m => { s with mem := m }
  | .error _ => s

end Sys2Proof.Machine
end

