-- ==== Sys2Proof/Machine/Cycle.lean ====
section
/-! DEFINITION. The step of the CORE for a word the environment supplies (10_state.md R32) and the run-step of the closed-system
convention (20_memory.md R66). -/

namespace Sys2Proof.Machine

/-- `Step(w, (x, pc, M))` (R32): identify the word first (R246); an unsupported word raises UnsupportedInstruction (R230);
otherwise run the instruction's rule (R124). Any way of choosing words (IFETCH, R65) is covered: `w` is any word. -/
def stepWord (w : Word) (s : State) : Result :=
  match decodeInstr w with
  | .ok i => exec i s
  | .error _ => raise (.unsupportedInstruction w)

/-- `Run-step((x, pc, M))` (R66): fetch, then step. A fetch out of bounds faults before any word is decoded (R246). -/
def runStep (s : State) : Result :=
  match fetch s with
  | .ok w => stepWord w s
  | .error f => raise f

end Sys2Proof.Machine
end

