-- ==== Sys2Proof/Machine/Step.lean ====
section
/-! DEFINITION. One step of the machine: the run-step of R66. -/

namespace Sys2Proof.Machine

def step (s : State) : Host.Outcome State Fault Refusal := runStep s

/-- `s` with the table's word stored where `step` fetches its next instruction: the four bytes at the pc (R66, log 6). -/
def State.withFetchWord (s : State) (nbits w : Nat) : State := placeFetchWord s (tableWord nbits w)

end Sys2Proof.Machine
end

