-- ==== Sys2Proof/Machine/Datapath.lean ====
section
/-! DEFINITION. The CORE block by block (10_state.md R35): the control table (40_decoder_block.md R125) and the datapath it
drives through RF, ALU, BRU and LSU. A second description of the 36 instructions: R125 says it is a summary, so `exec` is the
model and an obligation says the two agree. -/

namespace Sys2Proof.Machine

/-- Operand b of R125. -/
inductive SourceB where
  | unused
  | register (r : RegIdx)
  | immediate (v : Word)
  deriving DecidableEq, Repr

/-- The BRU column, with the offset the next pc adds. -/
inductive BruControl where
  | unused
  | conditional (c : Cond) (offset : Word)
  | always (offset : Word)
  deriving DecidableEq, Repr

/-- The LSU column. -/
inductive LsuControl where
  | unused
  | read (width : Width) (ext : Widening)
  | write (width : Width) (value : RegIdx)
  deriving DecidableEq, Repr

/-- The column "value written to x[rd]". -/
inductive WriteControl where
  | unused
  | aluResult (rd : RegIdx)
  | loadValue (rd : RegIdx)
  | immediate (rd : RegIdx) (v : Word)
  | link (rd : RegIdx)
  deriving DecidableEq, Repr

/-- One row of R125. -/
structure Control where
  a : Option RegIdx := none
  b : SourceB := .unused
  aluOp : Option AluOp := none
  bru : BruControl := .unused
  lsu : LsuControl := .unused
  write : WriteControl := .unused
  ecall : Bool := false
  deriving DecidableEq, Repr

def controlReg (op : AluOp) (rd rs1 rs2 : RegIdx) : Control :=
  { a := some rs1, b := .register rs2, aluOp := some op, write := .aluResult rd }

def controlImm (op : AluOp) (rd rs1 : RegIdx) (v : Word) : Control :=
  { a := some rs1, b := .immediate v, aluOp := some op, write := .aluResult rd }

def controlLoad (width : Width) (ext : Widening) (rd rs1 : RegIdx) (v : Word) : Control :=
  { a := some rs1, b := .immediate v, aluOp := some .add, lsu := .read width ext, write := .loadValue rd }

def controlStore (width : Width) (rs1 rs2 : RegIdx) (v : Word) : Control :=
  { a := some rs1, b := .immediate v, aluOp := some .add, lsu := .write width rs2 }

def controlBranch (c : Cond) (rs1 rs2 : RegIdx) (offset : Word) : Control :=
  { a := some rs1, b := .register rs2, bru := .conditional c offset }

/-- The control table (R125). -/
def control : Instr → Control
  | .add rd rs1 rs2  => controlReg .add rd rs1 rs2
  | .sub rd rs1 rs2  => controlReg .sub rd rs1 rs2
  | .sll rd rs1 rs2  => controlReg .sll rd rs1 rs2
  | .slt rd rs1 rs2  => controlReg .slt rd rs1 rs2
  | .sltu rd rs1 rs2 => controlReg .sltu rd rs1 rs2
  | .xor rd rs1 rs2  => controlReg .xor rd rs1 rs2
  | .srl rd rs1 rs2  => controlReg .srl rd rs1 rs2
  | .sra rd rs1 rs2  => controlReg .sra rd rs1 rs2
  | .or rd rs1 rs2   => controlReg .or rd rs1 rs2
  | .and rd rs1 rs2  => controlReg .and rd rs1 rs2
  | .addi rd rs1 imm  => controlImm .add rd rs1 imm
  | .slti rd rs1 imm  => controlImm .slt rd rs1 imm
  | .sltiu rd rs1 imm => controlImm .sltu rd rs1 imm
  | .xori rd rs1 imm  => controlImm .xor rd rs1 imm
  | .ori rd rs1 imm   => controlImm .or rd rs1 imm
  | .andi rd rs1 imm  => controlImm .and rd rs1 imm
  | .slli rd rs1 shamt => controlImm .sll rd rs1 (zext shamt)
  | .srli rd rs1 shamt => controlImm .srl rd rs1 (zext shamt)
  | .srai rd rs1 shamt => controlImm .sra rd rs1 (zext shamt)
  | .lb rd rs1 imm  => controlLoad .byte .sign rd rs1 imm
  | .lh rd rs1 imm  => controlLoad .half .sign rd rs1 imm
  | .lw rd rs1 imm  => controlLoad .word .asIs rd rs1 imm
  | .lbu rd rs1 imm => controlLoad .byte .zero rd rs1 imm
  | .lhu rd rs1 imm => controlLoad .half .zero rd rs1 imm
  | .sb rs1 rs2 imm => controlStore .byte rs1 rs2 imm
  | .sh rs1 rs2 imm => controlStore .half rs1 rs2 imm
  | .sw rs1 rs2 imm => controlStore .word rs1 rs2 imm
  | .beq rs1 rs2 off  => controlBranch .eq rs1 rs2 off
  | .bne rs1 rs2 off  => controlBranch .ne rs1 rs2 off
  | .blt rs1 rs2 off  => controlBranch .lt rs1 rs2 off
  | .bge rs1 rs2 off  => controlBranch .ge rs1 rs2 off
  | .bltu rs1 rs2 off => controlBranch .ltu rs1 rs2 off
  | .bgeu rs1 rs2 off => controlBranch .geu rs1 rs2 off
  | .lui rd imm => { write := .immediate rd imm }
  | .jal rd off => { bru := .always off, write := .link rd }
  | .ecall => { ecall := true }

/-- Operand b, read from RF or from the word. -/
def sourceB (s : State) : SourceB → Word
  | .unused => 0
  | .register r => s.readReg r
  | .immediate v => v

/-- The next pc the BRU gives (R200). -/
def bruNextPc (bru : BruControl) (pc a b : Word) : Word :=
  match bru with
  | .unused => branchTarget false pc 0
  | .conditional c offset => branchTarget (condHolds c a b) pc offset
  | .always offset => branchTarget true pc offset

/-- The one register write of a step; `v` is the loaded value, `y` the ALU result. -/
def writeStage (w : WriteControl) (v y : Word) (s : State) : State :=
  match w with
  | .unused => s
  | .aluResult rd => s.writeReg rd y
  | .loadValue rd => s.writeReg rd v
  | .immediate rd imm => s.writeReg rd imm
  | .link rd => s.writeReg rd s.pcNext

/-- The end of a step that raised nothing. -/
def retire (ecall : Bool) (pc' : Word) (s : State) : Result :=
  .next (if ecall then s.completeEcall pc' else s.complete pc')

/-- One step through the blocks: RF reads, ALU, BRU, LSU, RF write, pc (R35). -/
def datapath (c : Control) (s : State) : Result :=
  let a := (c.a.map s.readReg).getD 0
  let b := sourceB s c.b
  let y := (c.aluOp.map fun op => alu op a b).getD 0
  let pc' := bruNextPc c.bru s.pc a b
  match c.lsu with
  | .unused => retire c.ecall pc' (writeStage c.write 0 y s)
  | .read width ext =>
    match memRead s.mem y width with
    | .ok v => retire c.ecall pc' (writeStage c.write (widen ext width v) y s)
    | .error f => raise f
  | .write width r =>
    match memWrite s.mem y width (s.readReg r) with
    | .ok m => retire c.ecall pc' (writeStage c.write 0 y { s with mem := m })
    | .error f => raise f

end Sys2Proof.Machine
end

