-- ==== Sys2Proof/Machine/Environment.lean ====
section
/-! DEFINITION. What the environment does between steps (10_state.md R36; 70_reset_and_hazards.md R270, R273): create the state
from the parameters, set a register, the pc or a byte, place a program. No step does any of it. -/

namespace Sys2Proof.Machine

/-- Set one memory byte out of band; an address outside the memory names no cell (R36, R50). -/
def State.pokeByte (s : State) (a : Nat) (v : Byte) : State :=
  if a < s.mem.size then { s with mem := s.mem.setByte a v } else s

/-- Set one register out of band; a write to x[0] has no effect (R36). -/
def State.pokeReg (s : State) (i : RegIdx) (v : Word) : State := s.writeReg i v

/-- Set the pc out of band (R36). -/
def State.pokePc (s : State) (v : Word) : State := { s with pc := v }

/-- Set a list of memory bytes, in order (R36). -/
def State.pokeBytes : State → List Host.Cell → State
  | s, [] => s
  | s, (a, v) :: rest => (s.pokeByte a v).pokeBytes rest

/-- Place a program out of band: instruction words at consecutive addresses from `a`, least significant byte first (R273 (3),
95_test_vectors.md part 3). -/
def State.pokeWords : State → Nat → List Word → State
  | s, _, [] => s
  | s, a, w :: rest =>
    (s.pokeBytes [(a, byteOf w 0), (a + 1, byteOf w 1), (a + 2, byteOf w 2), (a + 3, byteOf w 3)]).pokeWords (a + 4) rest

/-- Reset for any parameters (R38, R270): x[1] to x[31] to RESET_X, the pc to RESET_PC, the cells to MEM_INIT, x[0] to zero. -/
def State.resetWith (c : Config) : State :=
  State.pokeBytes
    { regs := c.resetX.set 0 0#32, pc := c.resetPc, mem := { size := c.memSize, cells := [] }, ecall := false } c.memInit

end Sys2Proof.Machine
end

