-- ==== Sys2Proof/Machine/Report.lean ====
section
/-! DEFINITION. What crosses the CORE's boundary when a step ends (10_state.md R34; 60_exceptions.md R241, R242, R244). Signal
names, codes and widths are the spec's own (D13, D14). -/

namespace Sys2Proof.Machine

/-- `fault_kind` (R241): 1 UnsupportedInstruction, 2 OutOfBoundsMemoryAccess, 3 MisalignedAccess. -/
def faultKind : Fault → BitVec 2
  | .unsupportedInstruction _ => 1
  | .outOfBoundsMemoryAccess _ _ => 2
  | .misalignedAccess => 3

/-- `fault_info` (R242): the instruction word or the effective address; the spec gives kind 3 none. -/
def faultInfo : Fault → Option Word
  | .unsupportedInstruction w => some w
  | .outOfBoundsMemoryAccess ea _ => some ea
  | .misalignedAccess => none

/-- `fault_width` (R34): the access width in bytes for kind 2, else 0. -/
def faultWidth : Fault → BitVec 3
  | .unsupportedInstruction _ => 0
  | .outOfBoundsMemoryAccess _ width => BitVec.ofNat 3 width.bytes
  | .misalignedAccess => 0

/-- The post-state of a step (R32): after a fault the pre-state, bit for bit, with the ecall output 0 (R244, R226). -/
def afterStep (s : State) : Result → State
  | .next t => t
  | .fault _ => { s with ecall := false }
  | .refused _ => { s with ecall := false }

/-- The outputs of a step (R34). `faultInfo` is none where the spec gives the signal no meaning. -/
structure StepOutputs where
  ok : Bool
  faultKind : BitVec 2
  faultInfo : Option Word
  faultWidth : BitVec 3
  ecall : Bool
  pcNext : Word
  deriving DecidableEq, Repr

/-- The outputs of the step that ended `r` in `s`; none for a refusal, which no step ends in. -/
def report (s : State) (r : Result) : Option StepOutputs :=
  match r with
  | .next t => some ⟨true, 0, none, 0, t.ecall, t.pc⟩
  | .fault f => some ⟨false, faultKind f, faultInfo f, faultWidth f, false, s.pc⟩
  | .refused _ => none

end Sys2Proof.Machine
end

