-- ==== Sys2Proof/Machine/Run.lean ====
section
/-! DEFINITION. A run under the spec's convention (20_memory.md R67): it ends after a stated number of run-steps, at the first
ecall event, or at the first fault. The end is the environment's; the CORE itself never stops (log 10). -/

namespace Sys2Proof.Machine

/-- How a run ended (R67). -/
inductive RunEnd where
  /-- the stated number of run-steps is used up -/
  | outOfSteps (s : State)
  /-- the ECALL retired: the pc points past it -/
  | atEcall (s : State)
  /-- the first fault, with the pre-state of the faulting step -/
  | atFault (f : Fault) (s : State)
  /-- no instruction ends a run this way -/
  | atRefusal (r : Refusal) (s : State)
  deriving DecidableEq, Repr

/-- At most `n` run-steps from `s`. -/
def runProgram : Nat → State → RunEnd
  | 0, s => .outOfSteps s
  | n + 1, s =>
    match step s with
    | .next t => if t.ecall then .atEcall t else runProgram n t
    | .fault f => .atFault f s
    | .refused r => .atRefusal r s

end Sys2Proof.Machine
end

