-- ==== Sys2Proof/Safety.lean ====
section
/-! DEFINITION. The words the claims are written in: the invariant, and what a step changes and leaves unchanged. -/

namespace Sys2Proof.Machine

/-- The invariant every step keeps: the memory is in canonical form with every cell inside it, MEM_SIZE is legal (R6), and the
stored cell of register 0 is zero (R22: "the engine must never allow index 0's stored value to be observed as nonzero"). -/
abbrev State.Inv (s : State) : Prop := s.mem.wf ∧ s.mem.sizeOk ∧ s.regs[0] = 0#32

/-- Register `rd` holds `v` afterwards unless it is register 0, and every other register is as before (R21, R22). -/
def WritesReg (s t : State) (rd : RegIdx) (v : Word) : Prop :=
  t.readReg 0#5 = 0#32 ∧ (rd ≠ 0#5 → t.readReg rd = v) ∧ ∀ r, r ≠ rd → t.readReg r = s.readReg r

/-- Every register is as before. -/
def SameRegs (s t : State) : Prop := ∀ r, t.readReg r = s.readReg r

/-- Every byte of memory is as before, and there are as many. -/
def SameMemory (s t : State) : Prop := t.mem.size = s.mem.size ∧ ∀ a, t.mem.byte a = s.mem.byte a

/-- The `n` bytes from address `a` hold the low `n` bytes of `v`, least significant first, every byte outside them is as
before, and there are as many (R55). -/
def StoresBytes (s t : State) (a n : Nat) (v : Word) : Prop :=
  t.mem.size = s.mem.size ∧ (∀ k, k < n → t.mem.byte (a + k) = (v >>> (8 * k)).setWidth 8) ∧
    ∀ b, b < a ∨ a + n ≤ b → t.mem.byte b = s.mem.byte b

/-- The step ended `Ok` in a state that differs from `s` in register `rd`, which holds `v`, and in the pc, and raised no ecall
event. -/
def CompletesWriting (r : Result) (s : State) (rd : RegIdx) (v pc' : Word) : Prop :=
  ∃ t, r = .next t ∧ WritesReg s t rd v ∧ SameMemory s t ∧ t.pc = pc' ∧ t.ecall = false

/-- The step ended `Ok` in a state that differs from `s` in the pc alone, and raised no ecall event. -/
def CompletesJumping (r : Result) (s : State) (pc' : Word) : Prop :=
  ∃ t, r = .next t ∧ SameRegs s t ∧ SameMemory s t ∧ t.pc = pc' ∧ t.ecall = false

/-- The step ended `Ok` in a state that differs from `s` in the `n` bytes stored at `a` and in the pc, and raised no ecall
event. -/
def CompletesStoring (r : Result) (s : State) (a n : Nat) (v pc' : Word) : Prop :=
  ∃ t, r = .next t ∧ SameRegs s t ∧ StoresBytes s t a n v ∧ t.pc = pc' ∧ t.ecall = false

/-- The access of `width` bytes at `ea` is admitted (R56). -/
def Admitted (s : State) (ea : Word) (width : Width) : Prop := ea.toNat + width.bytes ≤ s.mem.size

end Sys2Proof.Machine
end

