-- ==== Sys2Proof/Certificates/Slice0/Obligations.lean ====
section
/-! DEFINITION. The statements for the provers. Where a statement rests on a clause the spec marks as its own decision (D<n>),
derivation or general knowledge (G<n>), its docstring says so. `w.extractLsb' lo k` is the field w[lo+k-1:lo]. -/

open Sys2Proof Sys2Proof.Machine

/-! ### Encoding -/

/-- The nine example words of 30_encoding.md R113, written out from the encodings, decode to the instructions they stand for, and
two words of R101 do not decode. Rests on the funct values, which the spec marks general knowledge (G1, log 8). -/
def Obligations.ReferenceWordsDecode : Prop :=
  decodeInstr 0x002081B3#32 = .ok (.add 3 1 2) ∧
  decodeInstr 0x00500093#32 = .ok (.addi 1 0 5) ∧
  decodeInstr 0x4070D193#32 = .ok (.srai 3 1 7) ∧
  decodeInstr 0x0000A183#32 = .ok (.lw 3 1 0) ∧
  decodeInstr 0x0020A023#32 = .ok (.sw 1 2 0) ∧
  decodeInstr 0xFE208CE3#32 = .ok (.beq 1 2 (-8)) ∧
  decodeInstr 0xDEADC2B7#32 = .ok (.lui 5 0xDEADC000) ∧
  decodeInstr 0x010000EF#32 = .ok (.jal 1 16) ∧
  decodeInstr 0x00000073#32 = .ok .ecall ∧
  decodeInstr 0x00100073#32 = .error .unsupportedFunct ∧
  decodeInstr 0x00000000#32 = .error .unsupportedOpcode

/-- R86, R87: imm_I and imm_S bit by bit, and their range; the points R86 gives. -/
def Obligations.ImmediatesIAndSAreReassembled : Prop :=
  ∀ w : Word,
    ((∀ i, i < 12 → (immI w).getLsbD i = w.getLsbD (20 + i)) ∧
      (∀ i, 12 ≤ i → i < 32 → (immI w).getLsbD i = w.getLsbD 31) ∧
      -2048 ≤ (immI w).toInt ∧ (immI w).toInt ≤ 2047 ∧
      (w.extractLsb' 20 12 = 0xFFF#12 → immI w = 0xFFFFFFFF#32) ∧
      (w.extractLsb' 20 12 = 0x7FF#12 → immI w = 0x000007FF#32) ∧
      (w.extractLsb' 20 12 = 0x800#12 → immI w = 0xFFFFF800#32) ∧
      (w.extractLsb' 20 12 = 0x005#12 → immI w = 0x00000005#32)) ∧
    ((∀ i, i < 5 → (immS w).getLsbD i = w.getLsbD (7 + i)) ∧
      (∀ i, 5 ≤ i → i < 12 → (immS w).getLsbD i = w.getLsbD (25 + (i - 5))) ∧
      (∀ i, 12 ≤ i → i < 32 → (immS w).getLsbD i = w.getLsbD 31) ∧
      -2048 ≤ (immS w).toInt ∧ (immS w).toInt ≤ 2047)

/-- R88, R89, R90: imm_SB, imm_U and imm_UJ bit by bit, and their range. -/
def Obligations.ImmediatesSBAndUAndUJAreReassembled : Prop :=
  ∀ w : Word,
    ((immSB w).getLsbD 0 = false ∧
      (∀ i, 1 ≤ i → i ≤ 4 → (immSB w).getLsbD i = w.getLsbD (8 + (i - 1))) ∧
      (∀ i, 5 ≤ i → i ≤ 10 → (immSB w).getLsbD i = w.getLsbD (25 + (i - 5))) ∧
      (immSB w).getLsbD 11 = w.getLsbD 7 ∧
      (∀ i, 12 ≤ i → i < 32 → (immSB w).getLsbD i = w.getLsbD 31) ∧
      -4096 ≤ (immSB w).toInt ∧ (immSB w).toInt ≤ 4094 ∧ (immSB w).toInt % 2 = 0) ∧
    ((∀ i, i < 12 → (immU w).getLsbD i = false) ∧
      (∀ i, 12 ≤ i → i < 32 → (immU w).getLsbD i = w.getLsbD i) ∧
      immU w = w &&& 0xFFFFF000#32 ∧ (immU w).toNat % 4096 = 0 ∧
      (∀ v : Word, v.toNat % 4096 = 0 → immU v = v)) ∧
    ((immUJ w).getLsbD 0 = false ∧
      (∀ i, 1 ≤ i → i ≤ 10 → (immUJ w).getLsbD i = w.getLsbD (21 + (i - 1))) ∧
      (immUJ w).getLsbD 11 = w.getLsbD 20 ∧
      (∀ i, 12 ≤ i → i ≤ 19 → (immUJ w).getLsbD i = w.getLsbD i) ∧
      (∀ i, 20 ≤ i → i < 32 → (immUJ w).getLsbD i = w.getLsbD 31) ∧
      -1048576 ≤ (immUJ w).toInt ∧ (immUJ w).toInt ≤ 1048574 ∧ (immUJ w).toInt % 2 = 0)

/-- Decoding the word of a well-formed instruction gives the instruction back, with every operand. -/
def Obligations.DecodeInvertsEncode : Prop := ∀ i : Instr, i.wellFormed = true → decodeInstr (encode i) = .ok i

/-- A word that decodes is the word of the instruction it decodes to, which is well formed: no bit of a supported word is
ignored, and no two words decode to one instruction. -/
def Obligations.EncodeInvertsDecode : Prop :=
  ∀ (w : Word) (i : Instr), decodeInstr w = .ok i → encode i = w ∧ i.wellFormed = true

/-- INDEX.md, "The opcode table": a word decodes exactly when one of the 36 rows (mask, match) accepts it, and then every row that
accepts it has the mnemonic of the decoded instruction. Rests on the funct values (G1, log 8). -/
def Obligations.SupportedWordsAreTheTableRows : Prop :=
  opcodeRows.length = 36 ∧
  ∀ w : Word,
    ((∃ i, decodeInstr w = .ok i) ↔ ∃ r ∈ opcodeRows, r.accepts w = true) ∧
    ∀ i, decodeInstr w = .ok i → ∀ r ∈ opcodeRows, (r.accepts w = true ↔ r.mnemonic = i.mnemonic)

/-- 30_encoding.md R101: the complete unsupported space, (a) to (g). Rests on the funct values (G1) and on D10 to D12 (log 8). -/
def Obligations.UnsupportedSpaceIsComplete : Prop :=
  ∀ w : Word,
    let op := w.extractLsb' 0 7
    let f3 := w.extractLsb' 12 3
    let f7 := w.extractLsb' 25 7
    (∃ r, decodeInstr w = .error r) ↔
      (op ∉ [0x33#7, 0x13#7, 0x03#7, 0x23#7, 0x63#7, 0x37#7, 0x6F#7, 0x73#7]) ∨
      (op = 0x33#7 ∧ ¬(f7 = 0b0000000#7 ∨ f7 = 0b0100000#7 ∧ (f3 = 0b000#3 ∨ f3 = 0b101#3))) ∨
      (op = 0x13#7 ∧ (f3 = 0b001#3 ∧ f7 ≠ 0b0000000#7 ∨ f3 = 0b101#3 ∧ f7 ≠ 0b0000000#7 ∧ f7 ≠ 0b0100000#7)) ∨
      (op = 0x03#7 ∧ (f3 = 0b011#3 ∨ f3 = 0b110#3 ∨ f3 = 0b111#3)) ∨
      (op = 0x23#7 ∧ f3 ∉ [0b000#3, 0b001#3, 0b010#3]) ∨
      (op = 0x63#7 ∧ (f3 = 0b010#3 ∨ f3 = 0b011#3)) ∨
      (op = 0x73#7 ∧ w ≠ 0x00000073#32)

/-- 40_decoder_block.md section 1: the variant is chosen by the major opcode alone and carries the fields of its format. What the
System and Unsupported variants carry is the spec's own choice (D19). -/
def Obligations.VariantIsChosenByMajorOpcode : Prop :=
  ∀ w : Word,
    let op := w.extractLsb' 0 7
    let rd := w.extractLsb' 7 5
    let f3 := w.extractLsb' 12 3
    let rs1 := w.extractLsb' 15 5
    let rs2 := w.extractLsb' 20 5
    (op = 0x33#7 → decode w = .r op rd f3 rs1 rs2 (w.extractLsb' 25 7)) ∧
    (op = 0x13#7 ∨ op = 0x03#7 → decode w = .i op rd f3 rs1 (immI w)) ∧
    (op = 0x23#7 → decode w = .s op f3 rs1 rs2 (immS w)) ∧
    (op = 0x63#7 → decode w = .sb op f3 rs1 rs2 (immSB w)) ∧
    (op = 0x37#7 → decode w = .u op rd (immU w)) ∧
    (op = 0x6F#7 → decode w = .uj op rd (immUJ w)) ∧
    (op = 0x73#7 → decode w = .system op rd f3 rs1 (immI w)) ∧
    (op ∉ [0x33#7, 0x13#7, 0x03#7, 0x23#7, 0x63#7, 0x37#7, 0x6F#7, 0x73#7] → decode w = .unsupported w)

/-! ### The blocks -/

/-- The ten ALU operations in integers (41_alu_reg.md section 1): wrap modulo 2^32, shifts by the low five bits, floor division by
a power of two for the arithmetic right shift, bit by bit for the logical ones. Operand order and shift amount are general
knowledge (G3, D9, log 8). -/
def Obligations.AluComputesTheTenOperations : Prop :=
  ∀ a b : Word,
    (alu .add a b).toNat = (a.toNat + b.toNat) % 2 ^ 32 ∧
    (alu .sub a b).toNat = (a.toNat + (2 ^ 32 - b.toNat)) % 2 ^ 32 ∧
    (alu .sll a b).toNat = a.toNat * 2 ^ (b.toNat % 32) % 2 ^ 32 ∧
    alu .slt a b = (if a.toInt < b.toInt then 1#32 else 0#32) ∧
    alu .sltu a b = (if a.toNat < b.toNat then 1#32 else 0#32) ∧
    (alu .srl a b).toNat = a.toNat / 2 ^ (b.toNat % 32) ∧
    (alu .sra a b).toInt = a.toInt / 2 ^ (b.toNat % 32) ∧
    ∀ i, i < 32 →
      (alu .xor a b).getLsbD i = (a.getLsbD i != b.getLsbD i) ∧
      (alu .or a b).getLsbD i = (a.getLsbD i || b.getLsbD i) ∧
      (alu .and a b).getLsbD i = (a.getLsbD i && b.getLsbD i)

/-- 40_decoder_block.md section 3: the 36 instruction rules agree with the control table R125 driving the datapath of blocks
RF, ALU, BRU and LSU. The table is the spec's own summary, derived from the instruction rules. -/
def Obligations.ExecAgreesWithControlTable : Prop := ∀ (i : Instr) (s : State), exec i s = datapath (control i) s

/-! ### Register-register ALU -/

/-- R152: what the ten instructions of opcode 0110011 have in common, from the word on. -/
def Obligations.RegisterRegisterCommonBehaviour : Prop :=
  ∀ (w : Word) (i : Instr), w.extractLsb' 0 7 = 0b0110011#7 → decodeInstr w = .ok i →
    ∃ op : AluOp,
      (i.mnemonic, op) ∈ [("ADD", AluOp.add), ("SUB", .sub), ("SLL", .sll), ("SLT", .slt), ("SLTU", .sltu), ("XOR", .xor),
        ("SRL", .srl), ("SRA", .sra), ("OR", .or), ("AND", .and)] ∧
      ∀ s : State,
        CompletesWriting (exec i s) s (w.extractLsb' 7 5)
          (alu op (s.readReg (w.extractLsb' 15 5)) (s.readReg (w.extractLsb' 20 5))) (s.pc + 4#32)

/-- ADD and SUB complete from every state, write the sum or rs1 minus rs2 modulo 2^32, and change nothing else but the pc. -/
def Obligations.AddAndSubResults : Prop :=
  ∀ (rd rs1 rs2 : RegIdx) (s : State),
    CompletesWriting (exec (.add rd rs1 rs2) s) s rd (s.readReg rs1 + s.readReg rs2) (s.pc + 4#32) ∧
    CompletesWriting (exec (.sub rd rs1 rs2) s) s rd (s.readReg rs1 - s.readReg rs2) (s.pc + 4#32)

/-- SLL, SRL and SRA complete from every state; the amount is x[rs2] modulo 32 (G3, log 8). -/
def Obligations.ShiftResults : Prop :=
  ∀ (rd rs1 rs2 : RegIdx) (s : State),
    let n := (s.readReg rs2).toNat % 32
    CompletesWriting (exec (.sll rd rs1 rs2) s) s rd (s.readReg rs1 <<< n) (s.pc + 4#32) ∧
    CompletesWriting (exec (.srl rd rs1 rs2) s) s rd (s.readReg rs1 >>> n) (s.pc + 4#32) ∧
    CompletesWriting (exec (.sra rd rs1 rs2) s) s rd ((s.readReg rs1).sshiftRight n) (s.pc + 4#32)

/-- SLT and SLTU complete from every state and write 1 or 0, rs1 compared against rs2 (G3, log 8). -/
def Obligations.SetLessThanResults : Prop :=
  ∀ (rd rs1 rs2 : RegIdx) (s : State),
    CompletesWriting (exec (.slt rd rs1 rs2) s) s rd
      (if (s.readReg rs1).toInt < (s.readReg rs2).toInt then 1#32 else 0#32) (s.pc + 4#32) ∧
    CompletesWriting (exec (.sltu rd rs1 rs2) s) s rd
      (if (s.readReg rs1).toNat < (s.readReg rs2).toNat then 1#32 else 0#32) (s.pc + 4#32)

/-- XOR, OR and AND complete from every state. -/
def Obligations.LogicalResults : Prop :=
  ∀ (rd rs1 rs2 : RegIdx) (s : State),
    CompletesWriting (exec (.xor rd rs1 rs2) s) s rd (s.readReg rs1 ^^^ s.readReg rs2) (s.pc + 4#32) ∧
    CompletesWriting (exec (.or rd rs1 rs2) s) s rd (s.readReg rs1 ||| s.readReg rs2) (s.pc + 4#32) ∧
    CompletesWriting (exec (.and rd rs1 rs2) s) s rd (s.readReg rs1 &&& s.readReg rs2) (s.pc + 4#32)

/-! ### Register-immediate ALU -/

/-- What the nine instructions of opcode 0010011 have in common (42_alu_imm.md), from the word on: the second operand, and the
values of w[31:25] a shift may have. Those values are general knowledge (G1) and the refusal of the others D11 (log 8). -/
def Obligations.RegisterImmediateCommonBehaviour : Prop :=
  ∀ w : Word, w.extractLsb' 0 7 = 0b0010011#7 →
    let f3 := w.extractLsb' 12 3
    let f7 := w.extractLsb' 25 7
    let shift := f3 = 0b001#3 ∨ f3 = 0b101#3
    (∀ i, decodeInstr w = .ok i →
      (shift → f7 = 0b0000000#7 ∧ i.mnemonic ∈ ["SLLI", "SRLI"] ∨ f7 = 0b0100000#7 ∧ i.mnemonic = "SRAI") ∧
      (¬shift → i.mnemonic ∈ ["ADDI", "SLTI", "SLTIU", "XORI", "ORI", "ANDI"]) ∧
      ∃ (op : AluOp) (b : Word),
        (i.mnemonic, op) ∈ [("ADDI", AluOp.add), ("SLTI", .slt), ("SLTIU", .sltu), ("XORI", .xor), ("ORI", .or),
          ("ANDI", .and), ("SLLI", .sll), ("SRLI", .srl), ("SRAI", .sra)] ∧
        (shift → b = (w.extractLsb' 20 5).setWidth 32) ∧
        (¬shift → b = (w.extractLsb' 20 12).signExtend 32) ∧
        ∀ s : State, CompletesWriting (exec i s) s (w.extractLsb' 7 5) (alu op (s.readReg (w.extractLsb' 15 5)) b)
          (s.pc + 4#32)) ∧
    (f3 = 0b001#3 → f7 ≠ 0b0000000#7 → ∃ r, decodeInstr w = .error r) ∧
    (f3 = 0b101#3 → f7 ≠ 0b0000000#7 → f7 ≠ 0b0100000#7 → ∃ r, decodeInstr w = .error r)

/-- ADDI and the two compares with an immediate complete from every state; SLTIU reads the sign-extended immediate as unsigned. -/
def Obligations.AddAndCompareImmediateResults : Prop :=
  ∀ (rd rs1 : RegIdx) (imm : Word) (s : State),
    CompletesWriting (exec (.addi rd rs1 imm) s) s rd (s.readReg rs1 + imm) (s.pc + 4#32) ∧
    CompletesWriting (exec (.slti rd rs1 imm) s) s rd
      (if (s.readReg rs1).toInt < imm.toInt then 1#32 else 0#32) (s.pc + 4#32) ∧
    CompletesWriting (exec (.sltiu rd rs1 imm) s) s rd
      (if (s.readReg rs1).toNat < imm.toNat then 1#32 else 0#32) (s.pc + 4#32)

/-- XORI, ORI and ANDI complete from every state, on the whole sign-extended immediate. -/
def Obligations.LogicalImmediateResults : Prop :=
  ∀ (rd rs1 : RegIdx) (imm : Word) (s : State),
    CompletesWriting (exec (.xori rd rs1 imm) s) s rd (s.readReg rs1 ^^^ imm) (s.pc + 4#32) ∧
    CompletesWriting (exec (.ori rd rs1 imm) s) s rd (s.readReg rs1 ||| imm) (s.pc + 4#32) ∧
    CompletesWriting (exec (.andi rd rs1 imm) s) s rd (s.readReg rs1 &&& imm) (s.pc + 4#32)

/-- SLLI, SRLI and SRAI complete from every state, the amount is the 5-bit field. -/
def Obligations.ShiftImmediateResults : Prop :=
  ∀ (rd rs1 : RegIdx) (shamt : BitVec 5) (s : State),
    CompletesWriting (exec (.slli rd rs1 shamt) s) s rd (s.readReg rs1 <<< shamt.toNat) (s.pc + 4#32) ∧
    CompletesWriting (exec (.srli rd rs1 shamt) s) s rd (s.readReg rs1 >>> shamt.toNat) (s.pc + 4#32) ∧
    CompletesWriting (exec (.srai rd rs1 shamt) s) s rd ((s.readReg rs1).sshiftRight shamt.toNat) (s.pc + 4#32)

/-! ### Loads and stores -/

/-- R180: the read path, from the word on: address, MemRead, widening, register write, pc, and the one fault. -/
def Obligations.LoadReadPath : Prop :=
  ∀ (w : Word) (i : Instr), w.extractLsb' 0 7 = 0b0000011#7 → decodeInstr w = .ok i →
    let rd := w.extractLsb' 7 5
    let rs1 := w.extractLsb' 15 5
    let imm := (w.extractLsb' 20 12).signExtend 32
    ∃ (width : Width) (ext : Word → Word),
      (i = .lb rd rs1 imm ∧ width = .byte ∧ (∀ v, ext v = (v.setWidth 8).signExtend 32) ∨
        i = .lh rd rs1 imm ∧ width = .half ∧ (∀ v, ext v = (v.setWidth 16).signExtend 32) ∨
        i = .lw rd rs1 imm ∧ width = .word ∧ (∀ v, ext v = v) ∨
        i = .lbu rd rs1 imm ∧ width = .byte ∧ (∀ v, ext v = (v.setWidth 8).setWidth 32) ∨
        i = .lhu rd rs1 imm ∧ width = .half ∧ (∀ v, ext v = (v.setWidth 16).setWidth 32)) ∧
      ∀ s : State,
        let ea := s.readReg rs1 + imm
        (ea.toNat + width.bytes ≤ s.mem.size → ∃ v, memRead s.mem ea width = .ok v ∧
          CompletesWriting (exec i s) s rd (ext v) (s.pc + 4#32)) ∧
        (s.mem.size < ea.toNat + width.bytes → exec i s = .fault (.outOfBoundsMemoryAccess ea width)) ∧
        (∀ f, exec i s = .fault f → s.mem.size < ea.toNat + width.bytes ∧ f = .outOfBoundsMemoryAccess ea width)

/-- LB and LBU complete where their byte is in the memory, and widen it by its sign or by zeros. -/
def Obligations.ByteLoadResults : Prop :=
  ∀ (rd rs1 : RegIdx) (imm : Word) (s : State),
    let a := (s.readReg rs1 + imm).toNat
    a + 1 ≤ s.mem.size →
      CompletesWriting (exec (.lb rd rs1 imm) s) s rd ((s.mem.byte a).signExtend 32) (s.pc + 4#32) ∧
      CompletesWriting (exec (.lbu rd rs1 imm) s) s rd ((s.mem.byte a).setWidth 32) (s.pc + 4#32)

/-- LH and LHU complete where both bytes are in the memory, at any alignment, low byte first. -/
def Obligations.HalfwordLoadResults : Prop :=
  ∀ (rd rs1 : RegIdx) (imm : Word) (s : State),
    let a := (s.readReg rs1 + imm).toNat
    let v : BitVec 16 := s.mem.byte (a + 1) ++ s.mem.byte a
    a + 2 ≤ s.mem.size →
      CompletesWriting (exec (.lh rd rs1 imm) s) s rd (v.signExtend 32) (s.pc + 4#32) ∧
      CompletesWriting (exec (.lhu rd rs1 imm) s) s rd (v.setWidth 32) (s.pc + 4#32)

/-- LW completes where all four bytes are in the memory, at any alignment, low byte first. -/
def Obligations.WordLoadResult : Prop :=
  ∀ (rd rs1 : RegIdx) (imm : Word) (s : State),
    let a := (s.readReg rs1 + imm).toNat
    let v : BitVec 32 := s.mem.byte (a + 3) ++ s.mem.byte (a + 2) ++ s.mem.byte (a + 1) ++ s.mem.byte a
    a + 4 ≤ s.mem.size → CompletesWriting (exec (.lw rd rs1 imm) s) s rd v (s.pc + 4#32)

/-- R190: the write path, from the word on: address, MemWrite, no register, pc, and the one fault. The bytes stored are the low
n bytes of x[rs2] at the effective address; every other byte is as before. -/
def Obligations.StoreWritePath : Prop :=
  ∀ (w : Word) (i : Instr), w.extractLsb' 0 7 = 0b0100011#7 → decodeInstr w = .ok i →
    let rs1 := w.extractLsb' 15 5
    let rs2 := w.extractLsb' 20 5
    let imm := (w.extractLsb' 25 7 ++ w.extractLsb' 7 5).signExtend 32
    ∃ width : Width,
      (i = .sb rs1 rs2 imm ∧ width = .byte ∨ i = .sh rs1 rs2 imm ∧ width = .half ∨ i = .sw rs1 rs2 imm ∧ width = .word) ∧
      ∀ s : State, s.Inv →
        let ea := s.readReg rs1 + imm
        (ea.toNat + width.bytes ≤ s.mem.size →
          CompletesStoring (exec i s) s ea.toNat width.bytes (s.readReg rs2) (s.pc + 4#32)) ∧
        (s.mem.size < ea.toNat + width.bytes → exec i s = .fault (.outOfBoundsMemoryAccess ea width)) ∧
        (∀ f, exec i s = .fault f → s.mem.size < ea.toNat + width.bytes ∧ f = .outOfBoundsMemoryAccess ea width)

/-- SB, SH and SW complete where all their bytes are in the memory, at any alignment; they write those bytes, the pc, and
nothing else. -/
def Obligations.StoreResults : Prop :=
  ∀ (rs1 rs2 : RegIdx) (imm : Word) (s : State), s.Inv →
    let a := (effectiveAddress s rs1 imm).toNat
    effectiveAddress s rs1 imm = s.readReg rs1 + imm ∧
    (a + 1 ≤ s.mem.size → CompletesStoring (exec (.sb rs1 rs2 imm) s) s a 1 (s.readReg rs2) (s.pc + 4#32)) ∧
    (a + 2 ≤ s.mem.size → CompletesStoring (exec (.sh rs1 rs2 imm) s) s a 2 (s.readReg rs2) (s.pc + 4#32)) ∧
    (a + 4 ≤ s.mem.size → CompletesStoring (exec (.sw rs1 rs2 imm) s) s a 4 (s.readReg rs2) (s.pc + 4#32))

/-- The five loads and the three stores fault where their access leaves the memory, register 0 as destination included. That a
load of register 0 checks its address is the spec's decision D15. -/
def Obligations.AccessOutOfBoundsFaults : Prop :=
  ∀ (rd rs1 rs2 : RegIdx) (imm : Word) (s : State),
    let ea := s.readReg rs1 + imm
    (s.mem.size < ea.toNat + 1 →
      exec (.lb rd rs1 imm) s = .fault (.outOfBoundsMemoryAccess ea .byte) ∧
      exec (.lbu rd rs1 imm) s = .fault (.outOfBoundsMemoryAccess ea .byte) ∧
      exec (.sb rs1 rs2 imm) s = .fault (.outOfBoundsMemoryAccess ea .byte)) ∧
    (s.mem.size < ea.toNat + 2 →
      exec (.lh rd rs1 imm) s = .fault (.outOfBoundsMemoryAccess ea .half) ∧
      exec (.lhu rd rs1 imm) s = .fault (.outOfBoundsMemoryAccess ea .half) ∧
      exec (.sh rs1 rs2 imm) s = .fault (.outOfBoundsMemoryAccess ea .half)) ∧
    (s.mem.size < ea.toNat + 4 →
      exec (.lw rd rs1 imm) s = .fault (.outOfBoundsMemoryAccess ea .word) ∧
      exec (.sw rs1 rs2 imm) s = .fault (.outOfBoundsMemoryAccess ea .word))

/-- 20_memory.md section 5, the round trip (the source's testable property): a load right after a store of the same width at the
same address gives the low bytes stored, sign-extended or zero-extended. The load's base is the store's, unchanged by it. -/
def Obligations.LoadAfterStoreReturnsTheBytes : Prop :=
  ∀ (rd rs1 rs2 : RegIdx) (imm : Word) (s t : State), s.Inv →
    let v := s.readReg rs2
    (exec (.sb rs1 rs2 imm) s = .next t →
      CompletesWriting (exec (.lb rd rs1 imm) t) t rd ((v.setWidth 8).signExtend 32) (t.pc + 4#32) ∧
      CompletesWriting (exec (.lbu rd rs1 imm) t) t rd ((v.setWidth 8).setWidth 32) (t.pc + 4#32)) ∧
    (exec (.sh rs1 rs2 imm) s = .next t →
      CompletesWriting (exec (.lh rd rs1 imm) t) t rd ((v.setWidth 16).signExtend 32) (t.pc + 4#32) ∧
      CompletesWriting (exec (.lhu rd rs1 imm) t) t rd ((v.setWidth 16).setWidth 32) (t.pc + 4#32)) ∧
    (exec (.sw rs1 rs2 imm) s = .next t →
      CompletesWriting (exec (.lw rd rs1 imm) t) t rd v (t.pc + 4#32))

/-! ### The memory primitives -/

/-- R54: MemRead is the little-endian sum of the n bytes, or the fault when a + n > MEM_SIZE. -/
def Obligations.MemReadIsTheLittleEndianSum : Prop :=
  ∀ (m : Memory) (addr : Word) (width : Width),
    let a := addr.toNat
    let n := width.bytes
    (m.size < a + n → memRead m addr width = .error (.outOfBoundsMemoryAccess addr width)) ∧
    (a + n ≤ m.size → ∃ v, memRead m addr width = .ok v ∧
      v.toNat = ∑ i ∈ Finset.range n, (m.byte (a + i)).toNat * 2 ^ (8 * i))

/-- R55: MemWrite writes exactly the n cells, each its byte of v, or raises and writes none. -/
def Obligations.MemWriteWritesExactlyItsCells : Prop :=
  ∀ (m : Memory) (addr : Word) (width : Width) (v : Word), m.wf →
    let a := addr.toNat
    let n := width.bytes
    (m.size < a + n → memWrite m addr width v = .error (.outOfBoundsMemoryAccess addr width)) ∧
    (a + n ≤ m.size → ∃ m', memWrite m addr width v = .ok m' ∧ m'.size = m.size ∧ m'.wf ∧
      (∀ i, i < n → m'.byte (a + i) = v.extractLsb' (8 * i) 8) ∧
      ∀ b, b < a ∨ a + n ≤ b → m'.byte b = m.byte b)

/-- R56: the bounds check is a + n <= MEM_SIZE in unbounded integers, never modulo 2^32; the last admitted access of n bytes is
at MEM_SIZE - n, and one byte further faults. A load or store one past the end reports OutOfBoundsMemoryAccess and leaves all
prior state unchanged. -/
def Obligations.BoundsCheckDoesNotWrap : Prop :=
  ∀ (m : Memory) (addr : Word) (width : Width) (v : Word),
    let n := width.bytes
    ((∃ x, memRead m addr width = .ok x) ↔ addr.toNat + n ≤ m.size) ∧
    ((∃ m', memWrite m addr width v = .ok m') ↔ addr.toNat + n ≤ m.size) ∧
    (m.sizeOk → 2 ^ 32 < addr.toNat + n →
      memRead m addr width = .error (.outOfBoundsMemoryAccess addr width) ∧
      memWrite m addr width v = .error (.outOfBoundsMemoryAccess addr width)) ∧
    (addr.toNat < m.size → m.size < addr.toNat + n →
      memRead m addr width = .error (.outOfBoundsMemoryAccess addr width) ∧
      memWrite m addr width v = .error (.outOfBoundsMemoryAccess addr width)) ∧
    (n ≤ m.size → addr.toNat = m.size - n →
      (∃ x, memRead m addr width = .ok x) ∧ ∃ m', memWrite m addr width v = .ok m') ∧
    (addr.toNat = m.size →
      memRead m addr width = .error (.outOfBoundsMemoryAccess addr width) ∧
      memWrite m addr width v = .error (.outOfBoundsMemoryAccess addr width)) ∧
    ∀ (s : State) (rd rs1 rs2 : RegIdx) (imm : Word), s.mem = m → s.readReg rs1 + imm = addr → addr.toNat = m.size →
      ∀ p ∈ [(Instr.lb rd rs1 imm, Width.byte), (.lbu rd rs1 imm, .byte), (.lh rd rs1 imm, .half), (.lhu rd rs1 imm, .half),
          (.lw rd rs1 imm, .word), (.sb rs1 rs2 imm, .byte), (.sh rs1 rs2 imm, .half), (.sw rs1 rs2 imm, .word)],
        exec p.1 s = .fault (.outOfBoundsMemoryAccess addr p.2) ∧
        SameRegs s (afterStep s (exec p.1 s)) ∧ (afterStep s (exec p.1 s)).pc = s.pc ∧
        (afterStep s (exec p.1 s)).mem = s.mem

/-- R53: a word lies in memory least significant byte first, and a narrow access inside it sees the bytes it put there. -/
def Obligations.WordsLieLittleEndian : Prop :=
  ∀ (m : Memory) (A : Word), m.wf → m.sizeOk → A.toNat + 4 ≤ m.size →
    (∀ v : Word, ∃ m', memWrite m A .word v = .ok m' ∧
      (∀ k, k < 4 → m'.byte (A.toNat + k) = v.extractLsb' (8 * k) 8 ∧
        memRead m' (A + BitVec.ofNat 32 k) .byte = .ok ((v.extractLsb' (8 * k) 8).setWidth 32)) ∧
      (∀ k, k < 3 → memRead m' (A + BitVec.ofNat 32 k) .half = .ok ((v.extractLsb' (8 * k) 16).setWidth 32)) ∧
      memRead m' A .word = .ok v) ∧
    ∃ m', memWrite m A .word 0xDEADBEEF#32 = .ok m' ∧
      m'.byte A.toNat = 0xEF#8 ∧ m'.byte (A.toNat + 1) = 0xBE#8 ∧
      m'.byte (A.toNat + 2) = 0xAD#8 ∧ m'.byte (A.toNat + 3) = 0xDE#8 ∧
      memRead m' A .byte = .ok 0xEF#32 ∧ memRead m' (A + 2#32) .half = .ok 0xDEAD#32 ∧
      memRead m' (A + 1#32) .half = .ok 0xADBE#32

/-! ### Branches, LUI, JAL, ECALL -/

/-- BEQ and BNE complete from every state and change the pc alone; the offset is from the branch's own pc, modulo 2^32 (D6), and
the target is not checked (D7). -/
def Obligations.BranchEqualityResults : Prop :=
  ∀ (rs1 rs2 : RegIdx) (off : Word) (s : State),
    CompletesJumping (exec (.beq rs1 rs2 off) s) s
      (if s.readReg rs1 = s.readReg rs2 then s.pc + off else s.pc + 4#32) ∧
    CompletesJumping (exec (.bne rs1 rs2 off) s) s
      (if s.readReg rs1 ≠ s.readReg rs2 then s.pc + off else s.pc + 4#32)

/-- BLT and BGE complete from every state, on signed values, rs1 against rs2 (G3, log 8). -/
def Obligations.BranchSignedResults : Prop :=
  ∀ (rs1 rs2 : RegIdx) (off : Word) (s : State),
    CompletesJumping (exec (.blt rs1 rs2 off) s) s
      (if (s.readReg rs1).toInt < (s.readReg rs2).toInt then s.pc + off else s.pc + 4#32) ∧
    CompletesJumping (exec (.bge rs1 rs2 off) s) s
      (if (s.readReg rs1).toInt < (s.readReg rs2).toInt then s.pc + 4#32 else s.pc + off)

/-- BLTU and BGEU complete from every state, on unsigned values, rs1 against rs2 (G3, log 8). -/
def Obligations.BranchUnsignedResults : Prop :=
  ∀ (rs1 rs2 : RegIdx) (off : Word) (s : State),
    CompletesJumping (exec (.bltu rs1 rs2 off) s) s
      (if (s.readReg rs1).toNat < (s.readReg rs2).toNat then s.pc + off else s.pc + 4#32) ∧
    CompletesJumping (exec (.bgeu rs1 rs2 off) s) s
      (if (s.readReg rs1).toNat < (s.readReg rs2).toNat then s.pc + 4#32 else s.pc + off)

/-- LUI: every word of opcode 0110111 is one; it completes from every state and writes w with its low 12 bits cleared. -/
def Obligations.LoadUpperImmediateResult : Prop :=
  (∀ (rd : RegIdx) (imm : Word) (s : State), CompletesWriting (exec (.lui rd imm) s) s rd imm (s.pc + 4#32)) ∧
  ∀ (w : Word) (s : State), w.extractLsb' 0 7 = 0b0110111#7 →
    CompletesWriting (stepWord w s) s (w.extractLsb' 7 5) (w &&& 0xFFFFF000#32) (s.pc + 4#32)

/-- 46_lui.md: a 32-bit constant is built by LUI and ADDI, `lo` its sign-extended low 12 bits, `C - lo` the upper part. The spec
marks this as derived. -/
def Obligations.LuiThenAddiBuildsAnyConstant : Prop :=
  ∀ (C : Word) (rd : RegIdx) (s : State), rd ≠ 0#5 →
    let lo := (C.extractLsb' 0 12).signExtend 32
    (Instr.lui rd (C - lo)).wellFormed = true ∧ (Instr.addi rd rd lo).wellFormed = true ∧
    ∃ t u, exec (.lui rd (C - lo)) s = .next t ∧ exec (.addi rd rd lo) t = .next u ∧ u.readReg rd = C ∧
      (∀ r, r ≠ rd → u.readReg r = s.readReg r) ∧ SameMemory s u ∧ u.pc = s.pc + 8#32

/-- JAL completes from every state: the link value and the target both come from the pc of the pre-state, modulo 2^32 (D6); the
target is not checked (D7); register 0 takes no link value and the jump happens all the same. -/
def Obligations.JumpAndLinkResult : Prop :=
  ∀ (rd : RegIdx) (off : Word) (s : State),
    CompletesWriting (exec (.jal rd off) s) s rd (s.pc + 4#32) (s.pc + off)

/-- ECALL completes from every state, changes the pc alone, and raises the ecall event. The event is the spec's own output (D13)
and the model's field `ecall` (log 5). -/
def Obligations.EcallResult : Prop :=
  ∀ s : State, ∃ t, exec .ecall s = .next t ∧ SameRegs s t ∧ SameMemory s t ∧ t.pc = s.pc + 4#32 ∧ t.ecall = true

/-! ### Registers -/

/-- R21: register 0 reads zero after every step and whatever its cell holds: no instruction's outcome depends on the cell. -/
def Obligations.RegisterZeroReadsZero : Prop :=
  (∀ s : State, s.readReg 0#5 = 0#32) ∧
  (∀ (s : State) (v : Word) (r : RegIdx), (s.writeReg 0#5 v).readReg r = s.readReg r) ∧
  ∀ (i : Instr) (s : State) (v : Word),
    let s' : State := { s with regs := s.regs.set 0 v }
    (∀ t, exec i s = .next t → ∃ t', exec i s' = .next t' ∧ SameRegs t t' ∧ t'.mem = t.mem ∧ t'.pc = t.pc ∧
      t'.ecall = t.ecall) ∧
    ∀ f, exec i s = .fault f → exec i s' = .fault f

/-- R22: a write to register 0 is discarded and the rest of the instruction happens: the pc advances (ALU, LUI), the jump is
taken (JAL), and a load reads its bytes under the same bounds check (for that check see also the spec's decision D15, log 8). -/
def Obligations.WriteToRegisterZeroIsDiscarded : Prop :=
  ∀ (rs1 rs2 : RegIdx) (shamt : BitVec 5) (imm : Word) (s : State),
    (∀ v : Word, s.writeReg 0#5 v = s) ∧
    (∀ i ∈ [Instr.add 0#5 rs1 rs2, .sub 0#5 rs1 rs2, .sll 0#5 rs1 rs2, .slt 0#5 rs1 rs2, .sltu 0#5 rs1 rs2,
        .xor 0#5 rs1 rs2, .srl 0#5 rs1 rs2, .sra 0#5 rs1 rs2, .or 0#5 rs1 rs2, .and 0#5 rs1 rs2],
      exec i s = .next { s with pc := s.pc + 4#32, ecall := false }) ∧
    (∀ i ∈ [Instr.addi 0#5 rs1 imm, .slti 0#5 rs1 imm, .sltiu 0#5 rs1 imm, .xori 0#5 rs1 imm, .ori 0#5 rs1 imm,
        .andi 0#5 rs1 imm, .slli 0#5 rs1 shamt, .srli 0#5 rs1 shamt, .srai 0#5 rs1 shamt, .lui 0#5 imm],
      exec i s = .next { s with pc := s.pc + 4#32, ecall := false }) ∧
    exec (.jal 0#5 imm) s = .next { s with pc := s.pc + imm, ecall := false } ∧
    ∀ p ∈ [(Instr.lb 0#5 rs1 imm, Width.byte), (.lbu 0#5 rs1 imm, .byte), (.lh 0#5 rs1 imm, .half),
        (.lhu 0#5 rs1 imm, .half), (.lw 0#5 rs1 imm, .word)],
      let ea := s.readReg rs1 + imm
      (ea.toNat + p.2.bytes ≤ s.mem.size → exec p.1 s = .next { s with pc := s.pc + 4#32, ecall := false }) ∧
      (s.mem.size < ea.toNat + p.2.bytes → exec p.1 s = .fault (.outOfBoundsMemoryAccess ea p.2))

/-! ### The step -/

/-- A run-step whose four bytes at the pc decode to `i` is `exec i`, with nothing around it (20_memory.md section 8: the
closed-system convention is the spec's own, D8, log 4). -/
def Obligations.StepRunsTheDecodedInstruction : Prop :=
  ∀ (s : State) (i : Instr), s.pc.toNat + 4 ≤ s.mem.size →
    decodeInstr (s.mem.byte (s.pc.toNat + 3) ++ s.mem.byte (s.pc.toNat + 2) ++ s.mem.byte (s.pc.toNat + 1) ++
      s.mem.byte s.pc.toNat) = .ok i →
    step s = exec i s

/-- A run-step faults before decoding when the fetch leaves the memory, and with the fetched word when it is unsupported (D8,
D15, log 4). -/
def Obligations.StepFaultsBeforeExecuting : Prop :=
  ∀ s : State,
    (s.mem.size < s.pc.toNat + 4 → step s = .fault (.outOfBoundsMemoryAccess s.pc .word)) ∧
    (s.pc.toNat + 4 ≤ s.mem.size →
      let w := s.mem.byte (s.pc.toNat + 3) ++ s.mem.byte (s.pc.toNat + 2) ++ s.mem.byte (s.pc.toNat + 1) ++
        s.mem.byte s.pc.toNat
      ∀ r, decodeInstr w = .error r → step s = .fault (.unsupportedInstruction w))

/-- The word placed by `withFetchWord` is the word the very next step runs (the model's own function, log 6). -/
def Obligations.PlacedWordIsTheNextOneRun : Prop :=
  ∀ (s : State) (w : Word), s.Inv → s.pc.toNat + 4 ≤ s.mem.size →
    let s' := s.withFetchWord 32 w.toNat
    step s' = stepWord w s' ∧ SameRegs s s' ∧ s'.pc = s.pc ∧ s'.ecall = s.ecall ∧ s'.mem.size = s.mem.size ∧
      ∀ b, b < s.pc.toNat ∨ s.pc.toNat + 4 ≤ b → s'.mem.byte b = s.mem.byte b

/-- A store is seen by the very next fetch (70_reset_and_hazards.md section 3 (e), under the convention D8, log 4): a SW to pc + 4
makes the next step run the word it stored. -/
def Obligations.StoreIsSeenByTheNextFetch : Prop :=
  ∀ (s t : State) (rs1 rs2 : RegIdx) (imm : Word), s.Inv →
    effectiveAddress s rs1 imm = s.pc + 4#32 → exec (.sw rs1 rs2 imm) s = .next t →
    step t = stepWord (s.readReg rs2) t

/-- R32: the step is a total function: an unsupported word faults with the word and a supported one runs its rule; the result is
always a next state or a fault, never a refusal, and after a fault the state is the pre-state. -/
def Obligations.StepIsTotal : Prop :=
  ∀ (w : Word) (s : State),
    (∀ r, decodeInstr w = .error r → stepWord w s = .fault (.unsupportedInstruction w)) ∧
    (∀ i, decodeInstr w = .ok i → stepWord w s = exec i s) ∧
    ((∃ i, decodeInstr w = .ok i) ∨ ∃ r, decodeInstr w = .error r) ∧
    ((∃ t, stepWord w s = .next t) ∨ ∃ f, stepWord w s = .fault f ∧
      (afterStep s (stepWord w s)).regs = s.regs ∧ (afterStep s (stepWord w s)).pc = s.pc ∧
      (afterStep s (stepWord w s)).mem = s.mem)

/-- An unsupported word: its outputs are fault_kind 1, fault_info the word, fault_width 0, no ecall event, and the pc stays
(48_system.md; the code and the payload are the spec's own, D14, log 8). -/
def Obligations.UnsupportedWordIsReported : Prop :=
  ∀ (w : Word) (s : State), (∀ i, decodeInstr w ≠ .ok i) →
    stepWord w s = .fault (.unsupportedInstruction w) ∧
    report s (stepWord w s) = some ⟨false, 1#2, some w, 0#3, false, s.pc⟩ ∧
    afterStep s (stepWord w s) = { s with ecall := false }

/-- The outputs of the other steps (10_state.md section 6, 60_exceptions.md section 1; codes are the spec's own, D14): an
out-of-bounds access reports kind 2, the address and the width; a step without fault reports kind 0, width 0, the event and the
new pc. -/
def Obligations.OutputsOfAStep : Prop :=
  ∀ (w : Word) (s : State),
    (∀ ea width, stepWord w s = .fault (.outOfBoundsMemoryAccess ea width) →
      report s (stepWord w s) = some ⟨false, 2#2, some ea, BitVec.ofNat 3 width.bytes, false, s.pc⟩ ∧
      width.bytes ∈ [1, 2, 4]) ∧
    ∀ t, stepWord w s = .next t → ∃ o, report s (stepWord w s) = some o ∧ o.ok = true ∧ o.faultKind = 0#2 ∧
      o.faultWidth = 0#3 ∧ o.ecall = decide (w = 0x00000073#32) ∧ o.pcNext = t.pc

/-- R244: after a fault every register, the pc and every byte keep their values and there is no ecall event. -/
def Obligations.FaultLeavesTheStateUnchanged : Prop :=
  (∀ (w : Word) (s : State) (f : Fault), stepWord w s = .fault f →
    let t := afterStep s (stepWord w s)
    SameRegs s t ∧ t.pc = s.pc ∧ SameMemory s t ∧ t.ecall = false) ∧
  ∀ (s : State) (f : Fault), step s = .fault f →
    let t := afterStep s (step s)
    SameRegs s t ∧ t.pc = s.pc ∧ SameMemory s t ∧ t.ecall = false

/-- 60_exceptions.md section 2, the table of which instruction can raise what: the only fault of an instruction is an access out of
bounds, of a load or store with its own width and address; MisalignedAccess is never raised, by an instruction, a word or a
run-step. The spec marks the table as derived and the last clause as its decision D5. -/
def Obligations.FaultsAreThoseOfTheTable : Prop :=
  (∀ (i : Instr) (s : State) (f : Fault), exec i s = .fault f →
    ∃ (rs1 : RegIdx) (imm : Word) (width : Width),
      ((∃ rd, width = .byte ∧ (i = .lb rd rs1 imm ∨ i = .lbu rd rs1 imm)) ∨
        (∃ rd, width = .half ∧ (i = .lh rd rs1 imm ∨ i = .lhu rd rs1 imm)) ∨
        (∃ rd, width = .word ∧ i = .lw rd rs1 imm) ∨
        (∃ rs2, width = .byte ∧ i = .sb rs1 rs2 imm ∨ width = .half ∧ i = .sh rs1 rs2 imm ∨
          width = .word ∧ i = .sw rs1 rs2 imm)) ∧
      s.mem.size < (s.readReg rs1 + imm).toNat + width.bytes ∧
      f = .outOfBoundsMemoryAccess (s.readReg rs1 + imm) width) ∧
  (∀ (w : Word) (s : State), stepWord w s ≠ .fault .misalignedAccess) ∧
  ∀ s : State, step s ≠ .fault .misalignedAccess

/-! ### Whole-machine rules -/

/-- Every step, of any word and of the closed system, keeps the invariant (canonical memory, legal MEM_SIZE, cell of register 0
zero) and the size of the memory. -/
def Obligations.StepKeepsTheInvariant : Prop :=
  (∀ (w : Word) (s t : State), s.Inv → stepWord w s = .next t → t.Inv ∧ t.mem.size = s.mem.size) ∧
  ∀ s t : State, s.Inv → step s = .next t → t.Inv ∧ t.mem.size = s.mem.size

/-- The state after reset with the default parameters: the zeros of 10_state.md section 7, no register an exception, and the
invariant. MEM_SIZE = 0x10000 and ecall = false are the model's choices (logs 1 and 5). -/
def Obligations.ResetStateIsZeroAndMeetsTheInvariant : Prop :=
  State.reset.Inv ∧ (∀ r, State.reset.readReg r = 0#32) ∧ State.reset.pc = 0#32 ∧
    (∀ a, State.reset.mem.byte a = 0#8) ∧ State.reset.mem.size = 0x10000 ∧ State.reset.ecall = false ∧
    State.reset = State.resetWith Config.default

/-- Reset with any parameters (10_state.md section 7, D4): x[i] is RESET_X[i], x[0] zero, the pc RESET_PC, each cell MEM_INIT's
value for it and 0x00 where it names none; and the invariant. Three clauses are the model's own choice, not the spec's: where the
list MEM_INIT names a cell several times the last value stands, a pair outside the memory is ignored (log 2), and the field
`ecall` is false (log 5). -/
def Obligations.ResetLoadsTheParameters : Prop :=
  ∀ c : Config, c.wf →
    let s := State.resetWith c
    s.Inv ∧ s.readReg 0#5 = 0#32 ∧ (∀ r : RegIdx, r ≠ 0#5 → s.readReg r = c.resetX[r.toNat]'r.isLt) ∧
      s.pc = c.resetPc ∧ s.mem.size = c.memSize ∧ s.ecall = false ∧
      ∀ a, a < c.memSize → s.mem.byte a = ((c.memInit.reverse.find? (fun p => p.1 == a)).map Prod.snd).getD 0#8

/-- 10_state.md section 2: bit 0 of the pc never changes, so a pc that starts even stays even. The spec marks this as derived. -/
def Obligations.PcBitZeroNeverChanges : Prop :=
  (∀ (w : Word) (s t : State), stepWord w s = .next t → t.pc.getLsbD 0 = s.pc.getLsbD 0) ∧
  ∀ s t : State, step s = .next t → t.pc.getLsbD 0 = s.pc.getLsbD 0

/-- 10_state.md section 1, 40_decoder_block.md section 3: a word whose major opcode is not the store opcode changes no byte of
memory, and a word of the store, branch or system opcode changes no register. -/
def Obligations.OnlyStoresChangeMemory : Prop :=
  ∀ (w : Word) (s t : State), stepWord w s = .next t →
    (w.extractLsb' 0 7 ≠ 0x23#7 → SameMemory s t) ∧
    (w.extractLsb' 0 7 ∈ [0x23#7, 0x63#7, 0x73#7] → SameRegs s t)

/-- A step changes no register but the one w[11:7] names (10_state.md sections 1 and 5: at most one general register). -/
def Obligations.OnlyTheNamedRegisterChanges : Prop :=
  ∀ (w : Word) (s t : State), stepWord w s = .next t →
    ∀ r : RegIdx, r ≠ w.extractLsb' 7 5 → t.readReg r = s.readReg r

/-- 48_system.md: the ecall output is 1 for a step that executes ECALL and 0 for every other step. The output is the spec's own
(D13), and the field that holds it the model's (log 5). -/
def Obligations.EcallOutputIsOneForEcallAlone : Prop :=
  ∀ (w : Word) (s t : State), stepWord w s = .next t → (t.ecall = true ↔ w = 0x00000073#32)

/-- The model's field `ecall` is an output: no step's result depends on it (log 5). -/
def Obligations.NoStepReadsTheEcallField : Prop :=
  ∀ (s : State) (b : Bool), step { s with ecall := b } = step s ∧ ∀ w, stepWord w { s with ecall := b } = stepWord w s

/-- 20_memory.md section 8, the end of a run (the spec's own convention D17, log 10). A run of k steps that is not over goes on
with the next run-step: a fault ends it there, with the pre-state of the faulting step, for every longer run; an ecall event ends
it there, for every longer run; any other step is one more step. Conversely a run that ended at a fault or an ECALL ended in such
a step, the pc past the ECALL; a run that is not over took every step without fault and without event; no run ends in a refusal. -/
def Obligations.RunEndsAtTheFirstFaultOrEcall : Prop :=
  ∀ s : State,
    runProgram 0 s = .outOfSteps s ∧
    (∀ k u, runProgram k s = .outOfSteps u →
      (∀ f, step u = .fault f → ∀ n, k < n → runProgram n s = .atFault f u) ∧
      (∀ t, step u = .next t → t.ecall = true → ∀ n, k < n → runProgram n s = .atEcall t) ∧
      ∀ t, step u = .next t → t.ecall = false → runProgram (k + 1) s = .outOfSteps t) ∧
    ∀ n : Nat,
      (∀ f u, runProgram n s = .atFault f u → step u = .fault f ∧ ∃ k, k < n ∧ runProgram k s = .outOfSteps u) ∧
      (∀ t, runProgram n s = .atEcall t → t.ecall = true ∧
        ∃ u k, k < n ∧ runProgram k s = .outOfSteps u ∧ step u = .next t ∧ t.pc = u.pc + 4#32) ∧
      (∀ u, runProgram n s = .outOfSteps u → ∀ k, k < n → ∃ v t, runProgram k s = .outOfSteps v ∧ step v = .next t ∧
        t.ecall = false ∧ runProgram (k + 1) s = .outOfSteps t) ∧
      ∀ r u, runProgram n s ≠ .atRefusal r u

/-- What the environment writes out of band (10_state.md section 6, 70_reset_and_hazards.md section 2) keeps the invariant and
does what it says: a register, the pc, a byte, a list of bytes, or a program of words at consecutive addresses, least significant
byte first, and nothing else; a write to register 0 has no effect. That the last of several values for one byte stands, and that
an address outside the memory names no byte to write, is the model's choice (log 2). -/
def Obligations.OutOfBandWritesKeepTheInvariant : Prop :=
  ∀ s : State, s.Inv →
    (∀ r v, (s.pokeReg r v).Inv ∧ WritesReg s (s.pokeReg r v) r v ∧ (s.pokeReg r v).pc = s.pc ∧
      (s.pokeReg r v).mem = s.mem ∧ (s.pokeReg r v).ecall = s.ecall) ∧
    (∀ v, s.pokeReg 0#5 v = s) ∧
    (∀ v, (s.pokePc v).Inv ∧ (s.pokePc v).pc = v ∧ SameRegs s (s.pokePc v) ∧ (s.pokePc v).mem = s.mem ∧
      (s.pokePc v).ecall = s.ecall) ∧
    (∀ a v, (s.pokeByte a v).Inv ∧ SameRegs s (s.pokeByte a v) ∧ (s.pokeByte a v).pc = s.pc ∧
      (s.pokeByte a v).ecall = s.ecall ∧ (s.pokeByte a v).mem.size = s.mem.size ∧
      (a < s.mem.size → (s.pokeByte a v).mem.byte a = v) ∧ (s.mem.size ≤ a → s.pokeByte a v = s) ∧
      ∀ b, b ≠ a → (s.pokeByte a v).mem.byte b = s.mem.byte b) ∧
    (∀ l, (s.pokeBytes l).Inv ∧ SameRegs s (s.pokeBytes l) ∧ (s.pokeBytes l).pc = s.pc ∧
      (s.pokeBytes l).ecall = s.ecall ∧ (s.pokeBytes l).mem.size = s.mem.size ∧
      ∀ b, b < s.mem.size →
        (s.pokeBytes l).mem.byte b = ((l.reverse.find? (fun p => p.1 == b)).map Prod.snd).getD (s.mem.byte b)) ∧
    ∀ a ws, (s.pokeWords a ws).Inv ∧ SameRegs s (s.pokeWords a ws) ∧ (s.pokeWords a ws).pc = s.pc ∧
      (s.pokeWords a ws).ecall = s.ecall ∧ (s.pokeWords a ws).mem.size = s.mem.size ∧
      (∀ (i : Nat) (w : Word), ws[i]? = some w → ∀ k, k < 4 → a + 4 * i + k < s.mem.size →
        (s.pokeWords a ws).mem.byte (a + 4 * i + k) = (w >>> (8 * k)).setWidth 8) ∧
      ∀ b, b < a ∨ a + 4 * ws.length ≤ b → (s.pokeWords a ws).mem.byte b = s.mem.byte b
end

