-- ==== Sys2Proof/Laws/Bits.lean ====
section
/-! SUPPORT. The fields of an encoded word, the words of given fields, and the immediates at the ranges they can hold. -/

namespace Sys2Proof

/-! ### Sign extension at the edge of its range -/

theorem sext_low12 (v : Word) (h : fits12 v = true) : sext (v.extractLsb' 0 12) = v := by
  obtain ⟨h1, h2⟩ : -2048 ≤ v.toInt ∧ v.toInt ≤ 2047 := by simpa [fits12] using h
  refine BitVec.eq_of_toInt_eq ?_
  have hn := v.isLt
  rw [sext, BitVec.toInt_signExtend]
  simp only [BitVec.toInt_eq_toNat_bmod, BitVec.extractLsb'_toNat, Nat.shiftRight_zero, Int.bmod, Nat.reducePow,
    show min 32 12 = 12 from rfl] at *
  split_ifs at * <;> push_cast at * <;> omega

theorem sext_low13 (v : Word) (h : fitsBranch v = true) : sext (v.extractLsb' 0 13) = v := by
  obtain ⟨⟨h1, h2⟩, -⟩ : (-4096 ≤ v.toInt ∧ v.toInt ≤ 4094) ∧ v.toNat % 2 = 0 := by simpa [fitsBranch] using h
  refine BitVec.eq_of_toInt_eq ?_
  have hn := v.isLt
  rw [sext, BitVec.toInt_signExtend]
  simp only [BitVec.toInt_eq_toNat_bmod, BitVec.extractLsb'_toNat, Nat.shiftRight_zero, Int.bmod, Nat.reducePow,
    show min 32 13 = 13 from rfl] at *
  split_ifs at * <;> push_cast at * <;> omega

theorem sext_low21 (v : Word) (h : fitsJump v = true) : sext (v.extractLsb' 0 21) = v := by
  obtain ⟨⟨h1, h2⟩, -⟩ : (-1048576 ≤ v.toInt ∧ v.toInt ≤ 1048574) ∧ v.toNat % 2 = 0 := by simpa [fitsJump] using h
  refine BitVec.eq_of_toInt_eq ?_
  have hn := v.isLt
  rw [sext, BitVec.toInt_signExtend]
  simp only [BitVec.toInt_eq_toNat_bmod, BitVec.extractLsb'_toNat, Nat.shiftRight_zero, Int.bmod, Nat.reducePow,
    show min 32 21 = 21 from rfl] at *
  split_ifs at * <;> push_cast at * <;> omega

/-- The low bits of a sign extension are the value. -/
theorem extract_sext {n : Nat} (v : BitVec n) (a k : Nat) (h : a + k ≤ n) (h32 : n ≤ 32) :
    (sext v).extractLsb' a k = v.extractLsb' a k := by
  ext i hi
  have : a + i < 32 := by omega
  simp [sext, BitVec.getElem_signExtend, this, show a + i < n by omega]

theorem fits12_sext (v : BitVec 12) : fits12 (sext v) = true := by
  have h1 := BitVec.two_mul_toInt_lt (x := v)
  have h2 := BitVec.le_two_mul_toInt (x := v)
  rw [fits12, sext, BitVec.toInt_signExtend_of_le (by omega)]
  simp only [Bool.and_eq_true, decide_eq_true_eq]
  omega

/-- An even value keeps its bit 0 clear under sign extension. -/
theorem even_sext {n : Nat} (v : BitVec n) (hn : 0 < n) (h0 : v[0] = false) : (sext v).toNat % 2 = 0 := by
  have : (sext v)[0] = false := by rw [sext, BitVec.getElem_signExtend, dif_pos hn, h0]
  rw [BitVec.getElem_eq_testBit_toNat, Nat.testBit_zero] at this
  simpa using this

theorem toInt_even {n : Nat} (v : BitVec (n + 1)) (h0 : v[0] = false) : v.toInt % 2 = 0 := by
  rw [BitVec.getElem_eq_testBit_toNat, Nat.testBit_zero] at h0
  have h0 : v.toNat % 2 = 0 := by simpa using h0
  rw [BitVec.toInt_eq_toNat_cond, Nat.pow_succ]
  split <;> push_cast <;> omega

theorem fitsBranch_sext (v : BitVec 13) (h0 : v[0] = false) : fitsBranch (sext v) = true := by
  have h1 := BitVec.two_mul_toInt_lt (x := v)
  have h2 := BitVec.le_two_mul_toInt (x := v)
  have he := even_sext v (by omega) h0
  have hp := toInt_even v h0
  rw [fitsBranch, sext, BitVec.toInt_signExtend_of_le (by omega)]
  simp only [Bool.and_eq_true, decide_eq_true_eq]
  rw [sext] at he
  refine ⟨⟨?_, ?_⟩, he⟩ <;> omega

theorem fitsJump_sext (v : BitVec 21) (h0 : v[0] = false) : fitsJump (sext v) = true := by
  have h1 := BitVec.two_mul_toInt_lt (x := v)
  have h2 := BitVec.le_two_mul_toInt (x := v)
  have he := even_sext v (by omega) h0
  have hp := toInt_even v h0
  rw [fitsJump, sext, BitVec.toInt_signExtend_of_le (by omega)]
  simp only [Bool.and_eq_true, decide_eq_true_eq]
  rw [sext] at he
  refine ⟨⟨?_, ?_⟩, he⟩ <;> omega

/-- Every immediate the decoder assembles is in its layout's range (R86 to R90). -/
theorem fits_immI (w : Word) : fits12 (immI w) = true := fits12_sext _
theorem fits_immS (w : Word) : fits12 (immS w) = true := fits12_sext _
theorem fits_immSB (w : Word) : fitsBranch (immSB w) = true := fitsBranch_sext _ (by rw [BitVec.getElem_append]; rfl)
theorem fits_immUJ (w : Word) : fitsJump (immUJ w) = true := fitsJump_sext _ (by rw [BitVec.getElem_append]; rfl)
theorem fits_immU (w : Word) : fitsUpper (immU w) = true := by
  simp only [fitsUpper, immU, BitVec.toNat_append, decide_eq_true_eq, BitVec.toNat_ofNat, Nat.zero_mod, Nat.or_zero,
    Nat.shiftLeft_eq]
  omega

/-! ### Immediates cut up and put together again -/

theorem glue12 (v : Word) : v.extractLsb' 5 7 ++ v.extractLsb' 0 5 = v.extractLsb' 0 12 := by
  ext i hi
  simp only [BitVec.getElem_append, BitVec.getElem_extractLsb']
  split_ifs <;> congr 1
  omega

theorem bit0_zero (v : Word) (h : v.toNat % 2 = 0) : 0#1 = v.extractLsb' 0 1 := by
  ext i hi
  obtain rfl : i = 0 := by omega
  have : v.getLsbD 0 = false := by rw [BitVec.getLsbD, Nat.testBit_zero]; simpa using h
  simpa using this.symm

theorem glue13 (v : Word) (h : v.toNat % 2 = 0) :
    v.extractLsb' 12 1 ++ v.extractLsb' 11 1 ++ v.extractLsb' 5 6 ++ v.extractLsb' 1 4 ++ 0#1 = v.extractLsb' 0 13 := by
  rw [bit0_zero v h]
  ext i hi
  simp only [BitVec.getElem_append, BitVec.getElem_extractLsb']
  split_ifs <;> congr 1 <;> omega

theorem glue21 (v : Word) (h : v.toNat % 2 = 0) :
    v.extractLsb' 20 1 ++ v.extractLsb' 12 8 ++ v.extractLsb' 11 1 ++ v.extractLsb' 1 10 ++ 0#1 = v.extractLsb' 0 21 := by
  rw [bit0_zero v h]
  ext i hi
  simp only [BitVec.getElem_append, BitVec.getElem_extractLsb']
  split_ifs <;> congr 1 <;> omega

theorem glueU (v : Word) (h : fitsUpper v = true) : v.extractLsb' 12 20 ++ 0#12 = v := by
  have h' : v.toNat % 4096 = 0 := by simpa [fitsUpper] using h
  refine BitVec.eq_of_toNat_eq ?_
  have hv := v.isLt
  rw [BitVec.toNat_append, BitVec.extractLsb'_toNat]
  simp only [BitVec.toNat_ofNat, Nat.zero_mod, Nat.or_zero, Nat.shiftLeft_eq, Nat.shiftRight_eq_div_pow]
  omega

/-! ### The fields of an encoded word -/

section
variable (f7 : BitVec 7) (rs2 rs1 rd : RegIdx) (f3 : BitVec 3) (op : BitVec 7) (imm : Word)

@[simp] theorem opcodeOf_encR : opcodeOf (encR f7 rs2 rs1 f3 rd op) = op := by
  unfold opcodeOf encR
  simp (disch := decide) only [BitVec.extractLsb'_append_eq_of_add_le, BitVec.extractLsb'_eq_self]
@[simp] theorem rdOf_encR : rdOf (encR f7 rs2 rs1 f3 rd op) = rd := by
  unfold rdOf encR
  simp (disch := decide) only [BitVec.extractLsb'_append_eq_of_add_le, BitVec.extractLsb'_append_eq_of_le,
    BitVec.extractLsb'_eq_self, Nat.reduceSub]
@[simp] theorem funct3Of_encR : funct3Of (encR f7 rs2 rs1 f3 rd op) = f3 := by
  unfold funct3Of encR
  simp (disch := decide) only [BitVec.extractLsb'_append_eq_of_add_le, BitVec.extractLsb'_append_eq_of_le,
    BitVec.extractLsb'_eq_self, Nat.reduceSub]
@[simp] theorem rs1Of_encR : rs1Of (encR f7 rs2 rs1 f3 rd op) = rs1 := by
  unfold rs1Of encR
  simp (disch := decide) only [BitVec.extractLsb'_append_eq_of_add_le, BitVec.extractLsb'_append_eq_of_le,
    BitVec.extractLsb'_eq_self, Nat.reduceSub]
@[simp] theorem rs2Of_encR : rs2Of (encR f7 rs2 rs1 f3 rd op) = rs2 := by
  unfold rs2Of encR
  simp (disch := decide) only [BitVec.extractLsb'_append_eq_of_add_le, BitVec.extractLsb'_append_eq_of_le,
    BitVec.extractLsb'_eq_self, Nat.reduceSub]
@[simp] theorem funct7Of_encR : funct7Of (encR f7 rs2 rs1 f3 rd op) = f7 := by
  unfold funct7Of encR
  simp (disch := decide) only [BitVec.extractLsb'_append_eq_of_le, BitVec.extractLsb'_eq_self, Nat.reduceSub]
@[simp] theorem immI_encR : immI (encR f7 rs2 rs1 f3 rd op) = sext (f7 ++ rs2) := by
  unfold immI encR
  simp (disch := decide) only [BitVec.extractLsb'_append_eq_of_le, BitVec.extractLsb'_eq_self, Nat.reduceSub]

@[simp] theorem opcodeOf_encI : opcodeOf (encI imm rs1 f3 rd op) = op := by
  unfold opcodeOf encI
  simp (disch := decide) only [BitVec.extractLsb'_append_eq_of_add_le, BitVec.extractLsb'_eq_self]
@[simp] theorem rdOf_encI : rdOf (encI imm rs1 f3 rd op) = rd := by
  unfold rdOf encI
  simp (disch := decide) only [BitVec.extractLsb'_append_eq_of_add_le, BitVec.extractLsb'_append_eq_of_le,
    BitVec.extractLsb'_eq_self, Nat.reduceSub]
@[simp] theorem funct3Of_encI : funct3Of (encI imm rs1 f3 rd op) = f3 := by
  unfold funct3Of encI
  simp (disch := decide) only [BitVec.extractLsb'_append_eq_of_add_le, BitVec.extractLsb'_append_eq_of_le,
    BitVec.extractLsb'_eq_self, Nat.reduceSub]
@[simp] theorem rs1Of_encI : rs1Of (encI imm rs1 f3 rd op) = rs1 := by
  unfold rs1Of encI
  simp (disch := decide) only [BitVec.extractLsb'_append_eq_of_add_le, BitVec.extractLsb'_append_eq_of_le,
    BitVec.extractLsb'_eq_self, Nat.reduceSub]
theorem immI_encI (h : fits12 imm = true) : immI (encI imm rs1 f3 rd op) = imm := by
  unfold immI encI
  simp (disch := decide) only [BitVec.extractLsb'_append_eq_of_le, BitVec.extractLsb'_eq_self, Nat.reduceSub]
  exact sext_low12 imm h

@[simp] theorem opcodeOf_encS : opcodeOf (encS imm rs2 rs1 f3 op) = op := by
  unfold opcodeOf encS
  simp (disch := decide) only [BitVec.extractLsb'_append_eq_of_add_le, BitVec.extractLsb'_eq_self]
@[simp] theorem funct3Of_encS : funct3Of (encS imm rs2 rs1 f3 op) = f3 := by
  unfold funct3Of encS
  simp (disch := decide) only [BitVec.extractLsb'_append_eq_of_add_le, BitVec.extractLsb'_append_eq_of_le,
    BitVec.extractLsb'_eq_self, Nat.reduceSub]
@[simp] theorem rs1Of_encS : rs1Of (encS imm rs2 rs1 f3 op) = rs1 := by
  unfold rs1Of encS
  simp (disch := decide) only [BitVec.extractLsb'_append_eq_of_add_le, BitVec.extractLsb'_append_eq_of_le,
    BitVec.extractLsb'_eq_self, Nat.reduceSub]
@[simp] theorem rs2Of_encS : rs2Of (encS imm rs2 rs1 f3 op) = rs2 := by
  unfold rs2Of encS
  simp (disch := decide) only [BitVec.extractLsb'_append_eq_of_add_le, BitVec.extractLsb'_append_eq_of_le,
    BitVec.extractLsb'_eq_self, Nat.reduceSub]
theorem immS_encS (h : fits12 imm = true) : immS (encS imm rs2 rs1 f3 op) = imm := by
  unfold immS encS
  simp (disch := decide) only [BitVec.extractLsb'_append_eq_of_add_le, BitVec.extractLsb'_append_eq_of_le,
    BitVec.extractLsb'_eq_self, Nat.reduceSub, glue12]
  exact sext_low12 imm h

@[simp] theorem opcodeOf_encSB : opcodeOf (encSB imm rs2 rs1 f3 op) = op := by
  unfold opcodeOf encSB
  simp (disch := decide) only [BitVec.extractLsb'_append_eq_of_add_le, BitVec.extractLsb'_eq_self]
@[simp] theorem funct3Of_encSB : funct3Of (encSB imm rs2 rs1 f3 op) = f3 := by
  unfold funct3Of encSB
  simp (disch := decide) only [BitVec.extractLsb'_append_eq_of_add_le, BitVec.extractLsb'_append_eq_of_le,
    BitVec.extractLsb'_eq_self, Nat.reduceSub]
@[simp] theorem rs1Of_encSB : rs1Of (encSB imm rs2 rs1 f3 op) = rs1 := by
  unfold rs1Of encSB
  simp (disch := decide) only [BitVec.extractLsb'_append_eq_of_add_le, BitVec.extractLsb'_append_eq_of_le,
    BitVec.extractLsb'_eq_self, Nat.reduceSub]
@[simp] theorem rs2Of_encSB : rs2Of (encSB imm rs2 rs1 f3 op) = rs2 := by
  unfold rs2Of encSB
  simp (disch := decide) only [BitVec.extractLsb'_append_eq_of_add_le, BitVec.extractLsb'_append_eq_of_le,
    BitVec.extractLsb'_eq_self, Nat.reduceSub]
theorem immSB_encSB (h : fitsBranch imm = true) : immSB (encSB imm rs2 rs1 f3 op) = imm := by
  have he : imm.toNat % 2 = 0 := by simp [fitsBranch] at h; exact h.2
  unfold immSB encSB
  simp (disch := decide) only [BitVec.extractLsb'_append_eq_of_add_le, BitVec.extractLsb'_append_eq_of_le,
    BitVec.extractLsb'_eq_self, Nat.reduceSub, glue13 imm he]
  exact sext_low13 imm h

@[simp] theorem opcodeOf_encU : opcodeOf (encU imm rd op) = op := by
  unfold opcodeOf encU
  simp (disch := decide) only [BitVec.extractLsb'_append_eq_of_add_le, BitVec.extractLsb'_eq_self]
@[simp] theorem rdOf_encU : rdOf (encU imm rd op) = rd := by
  unfold rdOf encU
  simp (disch := decide) only [BitVec.extractLsb'_append_eq_of_add_le, BitVec.extractLsb'_append_eq_of_le,
    BitVec.extractLsb'_eq_self, Nat.reduceSub]
theorem immU_encU (h : fitsUpper imm = true) : immU (encU imm rd op) = imm := by
  unfold immU encU
  simp (disch := decide) only [BitVec.extractLsb'_append_eq_of_le, BitVec.extractLsb'_eq_self, Nat.reduceSub]
  exact glueU imm h

@[simp] theorem opcodeOf_encUJ : opcodeOf (encUJ imm rd op) = op := by
  unfold opcodeOf encUJ
  simp (disch := decide) only [BitVec.extractLsb'_append_eq_of_add_le, BitVec.extractLsb'_eq_self]
@[simp] theorem rdOf_encUJ : rdOf (encUJ imm rd op) = rd := by
  unfold rdOf encUJ
  simp (disch := decide) only [BitVec.extractLsb'_append_eq_of_add_le, BitVec.extractLsb'_append_eq_of_le,
    BitVec.extractLsb'_eq_self, Nat.reduceSub]
theorem immUJ_encUJ (h : fitsJump imm = true) : immUJ (encUJ imm rd op) = imm := by
  have he : imm.toNat % 2 = 0 := by simp [fitsJump] at h; exact h.2
  unfold immUJ encUJ
  simp (disch := decide) only [BitVec.extractLsb'_append_eq_of_add_le, BitVec.extractLsb'_append_eq_of_le,
    BitVec.extractLsb'_eq_self, Nat.reduceSub, glue21 imm he]
  exact sext_low21 imm h

end

end Sys2Proof
end

