-- ==== Sys2Proof/Laws/Decode.lean ====
section
/-! SUPPORT. Everything the decoder can answer: by major opcode, then one lemma per opcode with minor fields. -/

namespace Sys2Proof

/-- The decoder by major opcode (R121, R123), the decoded value taken apart. -/
theorem decodeInstr_eq (w : Word) : decodeInstr w =
    if opcodeOf w = 0x33#7 then identifyR (funct7Of w) (funct3Of w) (rdOf w) (rs1Of w) (rs2Of w)
    else if opcodeOf w = 0x13#7 then identifyImm (funct3Of w) (rdOf w) (rs1Of w) (immI w)
    else if opcodeOf w = 0x03#7 then identifyLoad (funct3Of w) (rdOf w) (rs1Of w) (immI w)
    else if opcodeOf w = 0x23#7 then identifyStore (funct3Of w) (rs1Of w) (rs2Of w) (immS w)
    else if opcodeOf w = 0x63#7 then identifyBranch (funct3Of w) (rs1Of w) (rs2Of w) (immSB w)
    else if opcodeOf w = 0x37#7 then .ok (.lui (rdOf w) (immU w))
    else if opcodeOf w = 0x6F#7 then .ok (.jal (rdOf w) (immUJ w))
    else if opcodeOf w = 0x73#7 then
      if rdOf w = 0#5 ∧ funct3Of w = 0b000#3 ∧ rs1Of w = 0#5 ∧ immI w = 0#32 then .ok .ecall
      else .error .unsupportedFunct
    else .error .unsupportedOpcode := by
  unfold decodeInstr decode
  by_cases h1 : opcodeOf w = 0x33#7
  · simp [h1, identify]
  by_cases h2 : opcodeOf w = 0x13#7
  · simp [h2, identify]
  by_cases h3 : opcodeOf w = 0x03#7
  · simp [h3, identify]
  by_cases h4 : opcodeOf w = 0x23#7
  · simp [h4, identify]
  by_cases h5 : opcodeOf w = 0x63#7
  · simp [h5, identify]
  by_cases h6 : opcodeOf w = 0x37#7
  · simp [h6, identify]
  by_cases h7 : opcodeOf w = 0x6F#7
  · simp [h7, identify]
  by_cases h8 : opcodeOf w = 0x73#7
  · simp [h8, identify]
  simp [h1, h2, h3, h4, h5, h6, h7, h8, identify]

theorem funct3_cases (f : BitVec 3) :
    f = 0b000#3 ∨ f = 0b001#3 ∨ f = 0b010#3 ∨ f = 0b011#3 ∨ f = 0b100#3 ∨ f = 0b101#3 ∨ f = 0b110#3 ∨ f = 0b111#3 := by
  revert f; decide

section
variable (f7 : BitVec 7) (f3 : BitVec 3) (rd rs1 rs2 : RegIdx) (imm : Word)

/-- Opcode 0x33: what R94 accepts, and nothing else. -/
theorem identifyR_cases :
    (f7 = 0b0000000#7 ∧
      (f3 = 0b000#3 ∧ identifyR f7 f3 rd rs1 rs2 = .ok (.add rd rs1 rs2) ∨
        f3 = 0b001#3 ∧ identifyR f7 f3 rd rs1 rs2 = .ok (.sll rd rs1 rs2) ∨
        f3 = 0b010#3 ∧ identifyR f7 f3 rd rs1 rs2 = .ok (.slt rd rs1 rs2) ∨
        f3 = 0b011#3 ∧ identifyR f7 f3 rd rs1 rs2 = .ok (.sltu rd rs1 rs2) ∨
        f3 = 0b100#3 ∧ identifyR f7 f3 rd rs1 rs2 = .ok (.xor rd rs1 rs2) ∨
        f3 = 0b101#3 ∧ identifyR f7 f3 rd rs1 rs2 = .ok (.srl rd rs1 rs2) ∨
        f3 = 0b110#3 ∧ identifyR f7 f3 rd rs1 rs2 = .ok (.or rd rs1 rs2) ∨
        f3 = 0b111#3 ∧ identifyR f7 f3 rd rs1 rs2 = .ok (.and rd rs1 rs2))) ∨
    (f7 = 0b0100000#7 ∧ f3 = 0b000#3 ∧ identifyR f7 f3 rd rs1 rs2 = .ok (.sub rd rs1 rs2)) ∨
    (f7 = 0b0100000#7 ∧ f3 = 0b101#3 ∧ identifyR f7 f3 rd rs1 rs2 = .ok (.sra rd rs1 rs2)) ∨
    (f7 ≠ 0b0000000#7 ∧ (f7 = 0b0100000#7 → f3 ≠ 0b000#3 ∧ f3 ≠ 0b101#3) ∧
      identifyR f7 f3 rd rs1 rs2 = .error .unsupportedFunct) := by
  by_cases h0 : f7 = 0b0000000#7
  · subst h0
    rcases funct3_cases f3 with rfl | rfl | rfl | rfl | rfl | rfl | rfl | rfl <;> simp [identifyR]
  by_cases h1 : f7 = 0b0100000#7
  · subst h1
    rcases funct3_cases f3 with rfl | rfl | rfl | rfl | rfl | rfl | rfl | rfl <;> simp [identifyR]
  simp [identifyR, h0, h1]

/-- Opcode 0x13: what R91 and R95 accept, and nothing else. -/
theorem identifyImm_cases :
    let upper : BitVec 7 := imm.extractLsb' 5 7
    let shamt : BitVec 5 := imm.extractLsb' 0 5
    f3 = 0b000#3 ∧ identifyImm f3 rd rs1 imm = .ok (.addi rd rs1 imm) ∨
    f3 = 0b010#3 ∧ identifyImm f3 rd rs1 imm = .ok (.slti rd rs1 imm) ∨
    f3 = 0b011#3 ∧ identifyImm f3 rd rs1 imm = .ok (.sltiu rd rs1 imm) ∨
    f3 = 0b100#3 ∧ identifyImm f3 rd rs1 imm = .ok (.xori rd rs1 imm) ∨
    f3 = 0b110#3 ∧ identifyImm f3 rd rs1 imm = .ok (.ori rd rs1 imm) ∨
    f3 = 0b111#3 ∧ identifyImm f3 rd rs1 imm = .ok (.andi rd rs1 imm) ∨
    f3 = 0b001#3 ∧ (upper = 0b0000000#7 ∧ identifyImm f3 rd rs1 imm = .ok (.slli rd rs1 shamt) ∨
      upper ≠ 0b0000000#7 ∧ identifyImm f3 rd rs1 imm = .error .unsupportedFunct) ∨
    f3 = 0b101#3 ∧ (upper = 0b0000000#7 ∧ identifyImm f3 rd rs1 imm = .ok (.srli rd rs1 shamt) ∨
      upper = 0b0100000#7 ∧ identifyImm f3 rd rs1 imm = .ok (.srai rd rs1 shamt) ∨
      upper ≠ 0b0000000#7 ∧ upper ≠ 0b0100000#7 ∧ identifyImm f3 rd rs1 imm = .error .unsupportedFunct) := by
  intro upper shamt
  rcases funct3_cases f3 with rfl | rfl | rfl | rfl | rfl | rfl | rfl | rfl
  case inr.inl => by_cases h : upper = 0b0000000#7 <;> simp [identifyImm, upper, shamt] at h ⊢ <;> simp [h]
  case inr.inr.inr.inr.inr.inl =>
    by_cases h : upper = 0b0000000#7
    · simp [identifyImm, upper, shamt] at h ⊢; simp [h]
    · by_cases h' : upper = 0b0100000#7 <;> simp [identifyImm, upper, shamt] at h h' ⊢ <;> simp [h, h']
  all_goals simp [identifyImm]

/-- Opcode 0x03: what R96 accepts, and nothing else. -/
theorem identifyLoad_cases :
    f3 = 0b000#3 ∧ identifyLoad f3 rd rs1 imm = .ok (.lb rd rs1 imm) ∨
    f3 = 0b001#3 ∧ identifyLoad f3 rd rs1 imm = .ok (.lh rd rs1 imm) ∨
    f3 = 0b010#3 ∧ identifyLoad f3 rd rs1 imm = .ok (.lw rd rs1 imm) ∨
    f3 = 0b100#3 ∧ identifyLoad f3 rd rs1 imm = .ok (.lbu rd rs1 imm) ∨
    f3 = 0b101#3 ∧ identifyLoad f3 rd rs1 imm = .ok (.lhu rd rs1 imm) ∨
    (f3 = 0b011#3 ∨ f3 = 0b110#3 ∨ f3 = 0b111#3) ∧ identifyLoad f3 rd rs1 imm = .error .unsupportedFunct := by
  rcases funct3_cases f3 with rfl | rfl | rfl | rfl | rfl | rfl | rfl | rfl <;> simp [identifyLoad]

/-- Opcode 0x23: what R97 accepts, and nothing else. -/
theorem identifyStore_cases :
    f3 = 0b000#3 ∧ identifyStore f3 rs1 rs2 imm = .ok (.sb rs1 rs2 imm) ∨
    f3 = 0b001#3 ∧ identifyStore f3 rs1 rs2 imm = .ok (.sh rs1 rs2 imm) ∨
    f3 = 0b010#3 ∧ identifyStore f3 rs1 rs2 imm = .ok (.sw rs1 rs2 imm) ∨
    (f3 ≠ 0b000#3 ∧ f3 ≠ 0b001#3 ∧ f3 ≠ 0b010#3) ∧ identifyStore f3 rs1 rs2 imm = .error .unsupportedFunct := by
  rcases funct3_cases f3 with rfl | rfl | rfl | rfl | rfl | rfl | rfl | rfl <;> simp [identifyStore]

/-- Opcode 0x63: what R98 accepts, and nothing else. -/
theorem identifyBranch_cases :
    f3 = 0b000#3 ∧ identifyBranch f3 rs1 rs2 imm = .ok (.beq rs1 rs2 imm) ∨
    f3 = 0b001#3 ∧ identifyBranch f3 rs1 rs2 imm = .ok (.bne rs1 rs2 imm) ∨
    f3 = 0b100#3 ∧ identifyBranch f3 rs1 rs2 imm = .ok (.blt rs1 rs2 imm) ∨
    f3 = 0b101#3 ∧ identifyBranch f3 rs1 rs2 imm = .ok (.bge rs1 rs2 imm) ∨
    f3 = 0b110#3 ∧ identifyBranch f3 rs1 rs2 imm = .ok (.bltu rs1 rs2 imm) ∨
    f3 = 0b111#3 ∧ identifyBranch f3 rs1 rs2 imm = .ok (.bgeu rs1 rs2 imm) ∨
    (f3 = 0b010#3 ∨ f3 = 0b011#3) ∧ identifyBranch f3 rs1 rs2 imm = .error .unsupportedFunct := by
  rcases funct3_cases f3 with rfl | rfl | rfl | rfl | rfl | rfl | rfl | rfl <;> simp [identifyBranch]

end

end Sys2Proof
end

