-- ==== Sys2Proof/Laws/State.lean ====
section
/-! SUPPORT. One lemma per field per update of State, and the laws of the register file (R20 to R22). -/

namespace Sys2Proof.Machine

variable (s : State) (i j : RegIdx) (v pc' : Word) (m : Memory)

@[simp] theorem complete_regs : (s.complete pc').regs = s.regs := rfl
@[simp] theorem complete_pc : (s.complete pc').pc = pc' := rfl
@[simp] theorem complete_mem : (s.complete pc').mem = s.mem := rfl
@[simp] theorem complete_ecall : (s.complete pc').ecall = false := rfl
@[simp] theorem completeEcall_regs : (s.completeEcall pc').regs = s.regs := rfl
@[simp] theorem completeEcall_pc : (s.completeEcall pc').pc = pc' := rfl
@[simp] theorem completeEcall_mem : (s.completeEcall pc').mem = s.mem := rfl
@[simp] theorem completeEcall_ecall : (s.completeEcall pc').ecall = true := rfl
@[simp] theorem complete_readReg : (s.complete pc').readReg i = s.readReg i := rfl
@[simp] theorem completeEcall_readReg : (s.completeEcall pc').readReg i = s.readReg i := rfl
@[simp] theorem withMem_readReg : ({ s with mem := m } : State).readReg i = s.readReg i := rfl

@[simp] theorem writeReg_pc : (s.writeReg i v).pc = s.pc := by unfold State.writeReg; split <;> rfl
@[simp] theorem writeReg_mem : (s.writeReg i v).mem = s.mem := by unfold State.writeReg; split <;> rfl
@[simp] theorem writeReg_ecall : (s.writeReg i v).ecall = s.ecall := by unfold State.writeReg; split <;> rfl

/-- R21 -/
@[simp] theorem readReg_zero : s.readReg 0#5 = 0#32 := by simp [State.readReg]

/-- R22 -/
@[simp] theorem writeReg_zero : s.writeReg 0#5 v = s := by simp [State.writeReg]

theorem readReg_writeReg_same (h : i ≠ 0#5) : (s.writeReg i v).readReg i = v := by
  simp [State.readReg, State.writeReg, h]

theorem readReg_writeReg_other (h : j ≠ i) : (s.writeReg i v).readReg j = s.readReg j := by
  unfold State.readReg State.writeReg
  by_cases hj : j = 0#5
  · simp [hj]
  · by_cases hi : i = 0#5
    · simp [hi]
    · have hne : i.toNat ≠ j.toNat := fun e => h (BitVec.eq_of_toNat_eq e.symm)
      simp [hi, hj, Vector.getElem_set_ne _ _ hne]

/-- What a register write does, in one lemma. -/
theorem readReg_writeReg : (s.writeReg i v).readReg j = if j = i ∧ i ≠ 0#5 then v else s.readReg j := by
  by_cases h : j = i
  · subst h
    by_cases h0 : j = 0#5
    · subst h0; simp
    · simp [h0, readReg_writeReg_same s j v h0]
  · simp [h, readReg_writeReg_other s i j v h]

/-- The stored cell of register 0 is never written (R22). -/
@[simp] theorem writeReg_cell_zero : (s.writeReg i v).regs[0] = s.regs[0] := by
  unfold State.writeReg
  by_cases hi : i = 0#5
  · simp [hi]
  · have hne : i.toNat ≠ 0 := fun e => hi (BitVec.eq_of_toNat_eq (by simpa using e))
    simp [hi, Vector.getElem_set_ne _ _ hne]

end Sys2Proof.Machine
end

