-- ==== Sys2Proof/Laws/Memory.lean ====
section
/-! SUPPORT. The laws of the memory array: read after write, frame, the canonical form is kept by every operation, equal
memories are equal data; then what MemRead and MemWrite can do (R50 to R56). -/

namespace Sys2Proof.Machine

/-! ### Cell lists -/

theorem cellByte_setCell_other (l : List Host.Cell) (a b : Nat) (v : Byte) (h : b ≠ a) :
    cellByte (setCell l a v) b = cellByte l b := by
  induction l with
  | nil => by_cases hv : v = 0#8 <;> simp [setCell, cellByte, hv, h]
  | cons c rest ih =>
    obtain ⟨x, w⟩ := c
    by_cases hlt : a < x
    · by_cases hv : v = 0#8 <;> simp [setCell, cellByte, hlt, hv, h]
    · by_cases heq : a = x
      · by_cases hv : v = 0#8 <;> simp [setCell, cellByte, heq, hv, heq ▸ h]
      · by_cases hbx : b = x <;> simp [setCell, cellByte, hlt, heq, hbx, ih]

/-- An address below every listed one is not listed. -/
theorem cellByte_of_lt (l : List Host.Cell) (a : Nat) (h : ∀ c ∈ l, a < c.1) : cellByte l a = 0#8 := by
  induction l with
  | nil => rfl
  | cons c rest ih =>
    obtain ⟨x, w⟩ := c
    have hx : a < x := h _ List.mem_cons_self
    simp [cellByte, Nat.ne_of_lt hx, ih fun d hd => h d (List.mem_cons_of_mem _ hd)]

theorem cellByte_setCell_same (l : List Host.Cell) (a : Nat) (v : Byte) (hs : l.Pairwise fun c d => c.1 < d.1) :
    cellByte (setCell l a v) a = v := by
  induction l with
  | nil => by_cases hv : v = 0#8 <;> simp [setCell, cellByte, hv]
  | cons c rest ih =>
    obtain ⟨x, w⟩ := c
    obtain ⟨hx, hr⟩ := List.pairwise_cons.1 hs
    by_cases hlt : a < x
    · by_cases hv : v = 0#8
      · have : cellByte rest a = 0#8 := cellByte_of_lt rest a fun d hd => Nat.lt_trans hlt (hx d hd)
        simp [setCell, cellByte, hlt, hv, Nat.ne_of_lt hlt, this]
      · simp [setCell, cellByte, hlt, hv]
    · by_cases heq : a = x
      · by_cases hv : v = 0#8
        · subst heq
          simp [setCell, hv, cellByte_of_lt rest a hx]
        · simp [setCell, cellByte, heq, hv]
      · simp [setCell, cellByte, hlt, heq, ih hr]

theorem mem_setCell {l : List Host.Cell} {a : Nat} {v : Byte} {c : Host.Cell} (h : c ∈ setCell l a v) :
    c ∈ l ∨ (c = (a, v) ∧ v ≠ 0#8) := by
  induction l with
  | nil => by_cases hv : v = 0#8 <;> simp_all [setCell]
  | cons d rest ih =>
    obtain ⟨x, w⟩ := d
    unfold setCell at h
    split at h
    · split at h
      · exact .inl h
      · rcases List.mem_cons.1 h with h | h
        · exact .inr ⟨h, by assumption⟩
        · exact .inl h
    · split at h
      · split at h
        · exact .inl (List.mem_cons_of_mem _ h)
        · rcases List.mem_cons.1 h with h | h
          · exact .inr ⟨h, by assumption⟩
          · exact .inl (List.mem_cons_of_mem _ h)
      · rcases List.mem_cons.1 h with h | h
        · exact .inl (h ▸ List.mem_cons_self)
        · exact (ih h).imp (List.mem_cons_of_mem _) id

theorem setCell_sorted (l : List Host.Cell) (a : Nat) (v : Byte) (hs : l.Pairwise fun c d => c.1 < d.1) :
    (setCell l a v).Pairwise fun c d => c.1 < d.1 := by
  induction l with
  | nil => by_cases hv : v = 0#8 <;> simp [setCell, hv]
  | cons d rest ih =>
    obtain ⟨x, w⟩ := d
    obtain ⟨hx, hr⟩ := List.pairwise_cons.1 hs
    unfold setCell
    split
    · split
      · exact hs
      · exact List.pairwise_cons.2 ⟨fun c hc => by
          rcases List.mem_cons.1 hc with rfl | hc
          · assumption
          · have := hx c hc; simp only at this ⊢; omega, hs⟩
    · split
      · split
        · exact hr
        · exact List.pairwise_cons.2 ⟨fun c hc => by have := hx c hc; simp only at this ⊢; omega, hr⟩
      · refine List.pairwise_cons.2 ⟨fun c hc => ?_, ih hr⟩
        rcases mem_setCell hc with hc | ⟨rfl, -⟩
        · exact hx c hc
        · simp only; omega

/-! ### The memory array -/

@[simp] theorem setByte_size (m : Memory) (a : Nat) (v : Byte) : (m.setByte a v).size = m.size := rfl

theorem byte_setByte_other (m : Memory) (a b : Nat) (v : Byte) (h : b ≠ a) : (m.setByte a v).byte b = m.byte b :=
  cellByte_setCell_other m.cells a b v h

theorem byte_setByte_same (m : Memory) (a : Nat) (v : Byte) (hw : m.wf) : (m.setByte a v).byte a = v :=
  cellByte_setCell_same m.cells a v hw.1

theorem setByte_wf (m : Memory) (a : Nat) (v : Byte) (hw : m.wf) (ha : a < m.size) : (m.setByte a v).wf :=
  ⟨setCell_sorted m.cells a v hw.1, fun c hc => by
    rcases mem_setCell hc with hc | ⟨rfl, hv⟩
    · exact hw.2 c hc
    · exact ⟨hv, ha⟩⟩

@[simp] theorem storeBytes_size (m : Memory) (a : Nat) (v : Word) (n : Nat) : (m.storeBytes a v n).size = m.size := by
  induction n with
  | zero => rfl
  | succ n ih => simpa [Memory.storeBytes] using ih

/-- A store leaves every cell outside its bytes alone. -/
theorem byte_storeBytes_outside (m : Memory) (a : Nat) (v : Word) (n b : Nat) (h : b < a ∨ a + n ≤ b) :
    (m.storeBytes a v n).byte b = m.byte b := by
  induction n with
  | zero => rfl
  | succ n ih => rw [Memory.storeBytes, byte_setByte_other _ _ _ _ (by omega), ih (by omega)]

theorem storeBytes_wf (m : Memory) (a : Nat) (v : Word) (n : Nat) (hw : m.wf) (hb : a + n ≤ m.size) :
    (m.storeBytes a v n).wf := by
  induction n with
  | zero => exact hw
  | succ n ih => exact setByte_wf _ _ _ (ih (by omega)) (by rw [storeBytes_size]; omega)

/-- Byte k of a store is byte k of the value. -/
theorem byte_storeBytes_inside (m : Memory) (a : Nat) (v : Word) (n k : Nat) (hw : m.wf) (hb : a + n ≤ m.size)
    (hk : k < n) : (m.storeBytes a v n).byte (a + k) = byteOf v k := by
  induction n with
  | zero => omega
  | succ n ih =>
    rw [Memory.storeBytes]
    by_cases h : k = n
    · subst h; exact byte_setByte_same _ _ _ (storeBytes_wf m a v k hw (by omega))
    · rw [byte_setByte_other _ _ _ _ (by omega), ih (by omega) (by omega)]

/-- The head of a canonical list is what its address reads as. -/
theorem cellByte_cons (x : Nat) (w : Byte) (rest : List Host.Cell) : cellByte ((x, w) :: rest) x = w := by simp [cellByte]

/-- Canonical lists with the same bytes are the same list. -/
theorem cells_ext (l k : List Host.Cell) (hl : l.Pairwise fun c d => c.1 < d.1) (hk : k.Pairwise fun c d => c.1 < d.1)
    (zl : ∀ c ∈ l, c.2 ≠ 0#8) (zk : ∀ c ∈ k, c.2 ≠ 0#8) (h : ∀ a, cellByte l a = cellByte k a) : l = k := by
  induction l generalizing k with
  | nil =>
    cases k with
    | nil => rfl
    | cons d k =>
      have := h d.1
      rw [show d = (d.1, d.2) from rfl, cellByte_cons] at this
      exact absurd this.symm (zk d List.mem_cons_self)
  | cons c l ih =>
    obtain ⟨x, w⟩ := c
    obtain ⟨hx, hl'⟩ := List.pairwise_cons.1 hl
    have zw : w ≠ 0#8 := zl _ List.mem_cons_self
    cases k with
    | nil => exact absurd ((cellByte_cons x w l).symm.trans (h x)) zw
    | cons d k =>
      obtain ⟨y, u⟩ := d
      obtain ⟨hy, hk'⟩ := List.pairwise_cons.1 hk
      have zu : u ≠ 0#8 := zk _ List.mem_cons_self
      have hxy : x = y := by
        rcases Nat.lt_trichotomy x y with hlt | heq | hgt
        · refine absurd ((cellByte_cons x w l).symm.trans ((h x).trans (cellByte_of_lt _ x fun d hd => ?_))) zw
          rcases List.mem_cons.1 hd with rfl | hd
          · exact hlt
          · exact Nat.lt_trans hlt (hy d hd)
        · exact heq
        · refine absurd ((cellByte_cons y u k).symm.trans ((h y).symm.trans (cellByte_of_lt _ y fun d hd => ?_))) zu
          rcases List.mem_cons.1 hd with rfl | hd
          · exact hgt
          · exact Nat.lt_trans hgt (hx d hd)
      subst hxy
      have hwu : w = u := by have := h x; rwa [cellByte_cons, cellByte_cons] at this
      subst hwu
      have : l = k := ih k hl' hk' (fun c hc => zl c (List.mem_cons_of_mem _ hc)) (fun c hc => zk c (List.mem_cons_of_mem _ hc))
        fun a => by
          by_cases ha : a = x
          · subst ha; rw [cellByte_of_lt l a hx, cellByte_of_lt k a hy]
          · have := h a; simpa [cellByte, ha] using this
      rw [this]

/-- Canonical memories of one size that read the same everywhere are equal data. -/
theorem memory_ext (m m' : Memory) (hw : m.wf) (hw' : m'.wf) (hs : m.size = m'.size) (h : ∀ a, m.byte a = m'.byte a) :
    m = m' := by
  obtain ⟨sz, cells⟩ := m
  obtain ⟨sz', cells'⟩ := m'
  have : cells = cells' := cells_ext cells cells' hw.1 hw'.1 (fun c hc => (hw.2 c hc).1) (fun c hc => (hw'.2 c hc).1) h
  simp_all

/-- Outside the memory nothing is listed, so a canonical memory reads 0x00 there. -/
theorem byte_outside (m : Memory) (hw : m.wf) (a : Nat) (ha : m.size ≤ a) : m.byte a = 0#8 := by
  have : ∀ l : List Host.Cell, (∀ c ∈ l, c.1 < m.size) → cellByte l a = 0#8 := by
    intro l
    induction l with
    | nil => intro _; rfl
    | cons c rest ih =>
      intro hc
      obtain ⟨x, w⟩ := c
      have hx : x < m.size := hc _ List.mem_cons_self
      have : a ≠ x := by omega
      simp [cellByte, this, ih fun d hd => hc d (List.mem_cons_of_mem _ hd)]
  exact this m.cells fun c hc => (hw.2 c hc).2

/-! ### Little-endian values -/

theorem leValue_lt (m : Memory) (a n : Nat) : m.leValue a n < 256 ^ n := by
  induction n generalizing a with
  | zero => simp [Memory.leValue]
  | succ n ih =>
    have h1 := (m.byte a).isLt
    have h2 := ih (a + 1)
    rw [Memory.leValue, Nat.pow_succ]
    omega

theorem leValue_congr (m m' : Memory) (a n : Nat) (h : ∀ k, k < n → m.byte (a + k) = m'.byte (a + k)) :
    m.leValue a n = m'.leValue a n := by
  induction n generalizing a with
  | zero => rfl
  | succ n ih =>
    rw [Memory.leValue, Memory.leValue, show m.byte a = m'.byte a from h 0 (by omega),
      ih (a + 1) fun k hk => by have := h (k + 1) (by omega); rwa [show a + (k + 1) = a + 1 + k by omega] at this]

theorem byteOf_toNat (v : Word) (k : Nat) : (byteOf v k).toNat = v.toNat / 256 ^ k % 256 := by
  simp [byteOf, Nat.shiftRight_eq_div_pow, Nat.pow_mul]

/-- Bytes that are a value's bytes, from byte j on, read as that value's bytes. -/
theorem leValue_of_bytes (m : Memory) (v : Word) (a j n : Nat) (h : ∀ k, k < n → m.byte (a + k) = byteOf v (j + k)) :
    m.leValue a n = v.toNat / 256 ^ j % 256 ^ n := by
  induction n generalizing a j with
  | zero => simp [Memory.leValue, Nat.mod_one]
  | succ n ih =>
    have h0 : m.byte a = byteOf v j := by simpa using h 0 (by omega)
    rw [Memory.leValue, h0, byteOf_toNat, ih (a + 1) (j + 1) fun k hk => by
      have := h (k + 1) (by omega)
      rwa [show a + (k + 1) = a + 1 + k by omega, show j + (k + 1) = j + 1 + k by omega] at this]
    rw [Nat.pow_succ 256 j, ← Nat.div_div_eq_div_mul, Nat.pow_succ' , Nat.mod_mul]

/-! ### What MemRead and MemWrite can do -/

theorem inBounds_iff (m : Memory) (addr : Word) (width : Width) :
    m.inBounds addr width = true ↔ addr.toNat + width.bytes ≤ m.size := by simp [Memory.inBounds]

theorem memRead_of_le {m : Memory} {addr : Word} {width : Width} (h : addr.toNat + width.bytes ≤ m.size) :
    memRead m addr width = .ok (BitVec.ofNat 32 (m.leValue addr.toNat width.bytes)) := by
  simp [memRead, (inBounds_iff m addr width).2 h]

theorem memRead_of_gt {m : Memory} {addr : Word} {width : Width} (h : m.size < addr.toNat + width.bytes) :
    memRead m addr width = .error (.outOfBoundsMemoryAccess addr width) := by
  simp [memRead, Memory.inBounds, Nat.not_le.2 h]

theorem memWrite_of_le {m : Memory} {addr : Word} {width : Width} {v : Word} (h : addr.toNat + width.bytes ≤ m.size) :
    memWrite m addr width v = .ok (m.storeBytes addr.toNat v width.bytes) := by
  simp [memWrite, (inBounds_iff m addr width).2 h]

theorem memWrite_of_gt {m : Memory} {addr : Word} {width : Width} {v : Word} (h : m.size < addr.toNat + width.bytes) :
    memWrite m addr width v = .error (.outOfBoundsMemoryAccess addr width) := by
  simp [memWrite, Memory.inBounds, Nat.not_le.2 h]

/-- Everything MemRead can do. -/
theorem memRead_cases (m : Memory) (addr : Word) (width : Width) :
    (addr.toNat + width.bytes ≤ m.size ∧
      memRead m addr width = .ok (BitVec.ofNat 32 (m.leValue addr.toNat width.bytes))) ∨
    (m.size < addr.toNat + width.bytes ∧ memRead m addr width = .error (.outOfBoundsMemoryAccess addr width)) := by
  rcases Nat.lt_or_ge m.size (addr.toNat + width.bytes) with h | h
  · exact .inr ⟨h, memRead_of_gt h⟩
  · exact .inl ⟨h, memRead_of_le h⟩

/-- Everything MemWrite can do. -/
theorem memWrite_cases (m : Memory) (addr : Word) (width : Width) (v : Word) :
    (addr.toNat + width.bytes ≤ m.size ∧ memWrite m addr width v = .ok (m.storeBytes addr.toNat v width.bytes)) ∨
    (m.size < addr.toNat + width.bytes ∧ memWrite m addr width v = .error (.outOfBoundsMemoryAccess addr width)) := by
  rcases Nat.lt_or_ge m.size (addr.toNat + width.bytes) with h | h
  · exact .inr ⟨h, memWrite_of_gt h⟩
  · exact .inl ⟨h, memWrite_of_le h⟩

/-- A write keeps the canonical form and the size, and is in bounds. -/
theorem memWrite_ok {m m' : Memory} {addr : Word} {width : Width} {v : Word} (h : memWrite m addr width v = .ok m') :
    m'.size = m.size ∧ addr.toNat + width.bytes ≤ m.size ∧ m' = m.storeBytes addr.toNat v width.bytes ∧
      (m.wf → m'.wf) := by
  rcases memWrite_cases m addr width v with ⟨hb, he⟩ | ⟨-, he⟩
  · rw [he] at h
    cases h
    exact ⟨storeBytes_size .., hb, rfl, fun hw => storeBytes_wf _ _ _ _ hw hb⟩
  · rw [he] at h; cases h

/-! ### Out-of-band access (R36) keeps the canonical form -/

theorem pokeByte_wf (s : State) (a : Nat) (v : Byte) (hw : s.mem.wf) : (s.pokeByte a v).mem.wf := by
  unfold State.pokeByte
  split
  · exact setByte_wf _ _ _ hw ‹_›
  · exact hw

theorem pokeBytes_wf (s : State) (l : List Host.Cell) (hw : s.mem.wf) : (s.pokeBytes l).mem.wf := by
  induction l generalizing s with
  | nil => exact hw
  | cons c rest ih => exact ih _ (pokeByte_wf s c.1 c.2 hw)

theorem pokeWords_wf (s : State) (a : Nat) (ws : List Word) (hw : s.mem.wf) : (s.pokeWords a ws).mem.wf := by
  induction ws generalizing s a with
  | nil => exact hw
  | cons w rest ih => exact ih _ _ (pokeBytes_wf s _ hw)

@[simp] theorem pokeByte_size (s : State) (a : Nat) (v : Byte) : (s.pokeByte a v).mem.size = s.mem.size := by
  unfold State.pokeByte; split <;> rfl
@[simp] theorem pokeByte_regs (s : State) (a : Nat) (v : Byte) : (s.pokeByte a v).regs = s.regs := by
  unfold State.pokeByte; split <;> rfl
@[simp] theorem pokeByte_pc (s : State) (a : Nat) (v : Byte) : (s.pokeByte a v).pc = s.pc := by
  unfold State.pokeByte; split <;> rfl
@[simp] theorem pokeByte_ecall (s : State) (a : Nat) (v : Byte) : (s.pokeByte a v).ecall = s.ecall := by
  unfold State.pokeByte; split <;> rfl
@[simp] theorem pokeBytes_size (s : State) (l : List Host.Cell) : (s.pokeBytes l).mem.size = s.mem.size := by
  induction l generalizing s with
  | nil => rfl
  | cons c rest ih => exact (ih _).trans (pokeByte_size ..)
@[simp] theorem pokeBytes_regs (s : State) (l : List Host.Cell) : (s.pokeBytes l).regs = s.regs := by
  induction l generalizing s with
  | nil => rfl
  | cons c rest ih => exact (ih _).trans (pokeByte_regs ..)
@[simp] theorem pokeBytes_pc (s : State) (l : List Host.Cell) : (s.pokeBytes l).pc = s.pc := by
  induction l generalizing s with
  | nil => rfl
  | cons c rest ih => exact (ih _).trans (pokeByte_pc ..)
@[simp] theorem pokeBytes_ecall (s : State) (l : List Host.Cell) : (s.pokeBytes l).ecall = s.ecall := by
  induction l generalizing s with
  | nil => rfl
  | cons c rest ih => exact (ih _).trans (pokeByte_ecall ..)

/-- What one byte set out of band changes (R36): that byte if it exists, and nothing else. -/
theorem byte_pokeByte (s : State) (a b : Nat) (v : Byte) (hw : s.mem.wf) :
    (s.pokeByte a v).mem.byte b = if b = a ∧ a < s.mem.size then v else s.mem.byte b := by
  unfold State.pokeByte
  split
  · rename_i ha
    rcases eq_or_ne b a with rfl | hb
    · simp [ha, byte_setByte_same _ _ _ hw]
    · simp [hb, byte_setByte_other _ _ _ _ hb]
  · rename_i ha
    simp [ha]

/-- A word placed out of band: its four bytes, least significant first, where they exist, and nothing else. -/
theorem pokeWords_cons (s : State) (a : Nat) (w : Word) (ws : List Word) :
    s.pokeWords a (w :: ws) = ((((s.pokeByte a (byteOf w 0)).pokeByte (a + 1) (byteOf w 1)).pokeByte (a + 2) (byteOf w 2)).pokeByte
      (a + 3) (byteOf w 3)).pokeWords (a + 4) ws := rfl

@[simp] theorem pokeWords_size (s : State) (a : Nat) (ws : List Word) : (s.pokeWords a ws).mem.size = s.mem.size := by
  induction ws generalizing s a with
  | nil => rfl
  | cons w rest ih => exact (ih _ _).trans (pokeBytes_size ..)
@[simp] theorem pokeWords_regs (s : State) (a : Nat) (ws : List Word) : (s.pokeWords a ws).regs = s.regs := by
  induction ws generalizing s a with
  | nil => rfl
  | cons w rest ih => exact (ih _ _).trans (pokeBytes_regs ..)
@[simp] theorem pokeWords_pc (s : State) (a : Nat) (ws : List Word) : (s.pokeWords a ws).pc = s.pc := by
  induction ws generalizing s a with
  | nil => rfl
  | cons w rest ih => exact (ih _ _).trans (pokeBytes_pc ..)
@[simp] theorem pokeWords_ecall (s : State) (a : Nat) (ws : List Word) : (s.pokeWords a ws).ecall = s.ecall := by
  induction ws generalizing s a with
  | nil => rfl
  | cons w rest ih => exact (ih _ _).trans (pokeBytes_ecall ..)

end Sys2Proof.Machine
end

