-- ==== Sys2Proof/Laws/Exec.lean ====
section
/-! SUPPORT. For each shared operation, everything it can do; then everything one instruction and one step can do. -/

namespace Sys2Proof.Machine

theorem writesReg_writeReg (s : State) (rd : RegIdx) (v : Word) : WritesReg s (s.writeReg rd v) rd v :=
  ⟨readReg_zero _, fun h => readReg_writeReg_same s rd v h, fun r h => readReg_writeReg_other s rd r v h⟩

/-- The end of an ALU instruction, of LUI, and of a load in bounds. -/
theorem writeback_completes (rd : RegIdx) (v : Word) (s : State) :
    CompletesWriting (writeback rd v s) s rd v (s.pc + 4#32) :=
  ⟨_, rfl, writesReg_writeReg s rd v, ⟨by simp, fun a => by simp [Memory.byte]⟩, rfl, rfl⟩

/-- Everything a load can do. -/
theorem load_cases (width : Width) (ext : Widening) (rd rs1 : RegIdx) (imm : Word) (s : State) :
    (Admitted s (effectiveAddress s rs1 imm) width ∧
      load width ext rd rs1 imm s = writeback rd
        (widen ext width (BitVec.ofNat 32 (s.mem.leValue (effectiveAddress s rs1 imm).toNat width.bytes))) s) ∨
    (¬Admitted s (effectiveAddress s rs1 imm) width ∧
      load width ext rd rs1 imm s = .fault (.outOfBoundsMemoryAccess (effectiveAddress s rs1 imm) width)) := by
  rcases memRead_cases s.mem (effectiveAddress s rs1 imm) width with ⟨hb, he⟩ | ⟨hb, he⟩
  · exact .inl ⟨hb, by rw [load, he]⟩
  · exact .inr ⟨Nat.not_le.2 hb, by rw [load, he]; rfl⟩

/-- Everything a store can do. -/
theorem store_cases (width : Width) (rs1 rs2 : RegIdx) (imm : Word) (s : State) :
    (Admitted s (effectiveAddress s rs1 imm) width ∧
      store width rs1 rs2 imm s = .next (State.complete
        { s with mem := s.mem.storeBytes (effectiveAddress s rs1 imm).toNat (s.readReg rs2) width.bytes } s.pcNext)) ∨
    (¬Admitted s (effectiveAddress s rs1 imm) width ∧
      store width rs1 rs2 imm s = .fault (.outOfBoundsMemoryAccess (effectiveAddress s rs1 imm) width)) := by
  rcases memWrite_cases s.mem (effectiveAddress s rs1 imm) width (s.readReg rs2) with ⟨hb, he⟩ | ⟨hb, he⟩
  · exact .inl ⟨hb, by rw [store, he]⟩
  · exact .inr ⟨Nat.not_le.2 hb, by rw [store, he]; rfl⟩

theorem storeBytes_storesBytes (s : State) (a n : Nat) (v : Word) (hw : s.mem.wf) (hb : a + n ≤ s.mem.size) (pc' : Word) :
    StoresBytes s (State.complete { s with mem := s.mem.storeBytes a v n } pc') a n v :=
  ⟨by simp, fun k hk => byte_storeBytes_inside s.mem a v n k hw hb hk,
    fun b hb => byte_storeBytes_outside s.mem a v n b hb⟩

/-- A branch completes and changes the pc alone. -/
theorem branch_completes (c : Cond) (rs1 rs2 : RegIdx) (offset : Word) (s : State) :
    CompletesJumping (branch c rs1 rs2 offset s) s
      (branchTarget (condHolds c (s.readReg rs1) (s.readReg rs2)) s.pc offset) :=
  ⟨_, rfl, fun _ => rfl, ⟨rfl, fun _ => rfl⟩, rfl, rfl⟩

/-- Everything one instruction can do (R33: at most one register, at most four bytes, the pc; R245: the one fault). -/
theorem exec_cases (i : Instr) (s : State) :
    (∃ rd v, exec i s = .next ((s.writeReg rd v).complete (s.pc + 4#32))) ∨
    (∃ rd offset, i = .jal rd offset ∧
      exec i s = .next ((s.writeReg rd s.pcNext).complete (branchTarget true s.pc offset))) ∨
    (∃ c rs1 rs2 offset, (i = .beq rs1 rs2 offset ∨ i = .bne rs1 rs2 offset ∨ i = .blt rs1 rs2 offset ∨
        i = .bge rs1 rs2 offset ∨ i = .bltu rs1 rs2 offset ∨ i = .bgeu rs1 rs2 offset) ∧
      exec i s = .next (s.complete (branchTarget (condHolds c (s.readReg rs1) (s.readReg rs2)) s.pc offset))) ∨
    (∃ width rs1 rs2 imm, (i = .sb rs1 rs2 imm ∨ i = .sh rs1 rs2 imm ∨ i = .sw rs1 rs2 imm) ∧
      Admitted s (effectiveAddress s rs1 imm) width ∧
      exec i s = .next (State.complete
        { s with mem := s.mem.storeBytes (effectiveAddress s rs1 imm).toNat (s.readReg rs2) width.bytes } s.pcNext)) ∨
    (i = .ecall ∧ exec i s = .next (s.completeEcall s.pcNext)) ∨
    (∃ ea width, ¬Admitted s ea width ∧ exec i s = .fault (.outOfBoundsMemoryAccess ea width)) := by
  have wb : ∀ rd v, exec i s = writeback rd v s →
      ∃ rd v, exec i s = .next ((s.writeReg rd v).complete (s.pc + 4#32)) := fun rd v h => ⟨rd, v, h⟩
  have ld : ∀ width ext rd rs1 imm, exec i s = load width ext rd rs1 imm s →
      (∃ rd v, exec i s = .next ((s.writeReg rd v).complete (s.pc + 4#32))) ∨
      (∃ ea width, ¬Admitted s ea width ∧ exec i s = .fault (.outOfBoundsMemoryAccess ea width)) := by
    intro width ext rd rs1 imm h
    rcases load_cases width ext rd rs1 imm s with ⟨-, he⟩ | ⟨hb, he⟩
    · exact .inl (wb _ _ (h.trans he))
    · exact .inr ⟨_, _, hb, h.trans he⟩
  cases i with
  | add | sub | sll | slt | sltu | xor | srl | sra | or | and => exact .inl (wb _ _ rfl)
  | addi | slti | sltiu | xori | ori | andi | slli | srli | srai | lui => exact .inl (wb _ _ rfl)
  | lb rd rs1 imm => exact (ld .byte .sign rd rs1 imm rfl).imp id fun h => .inr (.inr (.inr (.inr h)))
  | lh rd rs1 imm => exact (ld .half .sign rd rs1 imm rfl).imp id fun h => .inr (.inr (.inr (.inr h)))
  | lw rd rs1 imm => exact (ld .word .asIs rd rs1 imm rfl).imp id fun h => .inr (.inr (.inr (.inr h)))
  | lbu rd rs1 imm => exact (ld .byte .zero rd rs1 imm rfl).imp id fun h => .inr (.inr (.inr (.inr h)))
  | lhu rd rs1 imm => exact (ld .half .zero rd rs1 imm rfl).imp id fun h => .inr (.inr (.inr (.inr h)))
  | sb rs1 rs2 imm =>
    rcases store_cases .byte rs1 rs2 imm s with ⟨hb, he⟩ | ⟨hb, he⟩
    · exact .inr (.inr (.inr (.inl ⟨.byte, rs1, rs2, imm, .inl rfl, hb, he⟩)))
    · exact .inr (.inr (.inr (.inr (.inr ⟨_, _, hb, he⟩))))
  | sh rs1 rs2 imm =>
    rcases store_cases .half rs1 rs2 imm s with ⟨hb, he⟩ | ⟨hb, he⟩
    · exact .inr (.inr (.inr (.inl ⟨.half, rs1, rs2, imm, .inr (.inl rfl), hb, he⟩)))
    · exact .inr (.inr (.inr (.inr (.inr ⟨_, _, hb, he⟩))))
  | sw rs1 rs2 imm =>
    rcases store_cases .word rs1 rs2 imm s with ⟨hb, he⟩ | ⟨hb, he⟩
    · exact .inr (.inr (.inr (.inl ⟨.word, rs1, rs2, imm, .inr (.inr rfl), hb, he⟩)))
    · exact .inr (.inr (.inr (.inr (.inr ⟨_, _, hb, he⟩))))
  | beq rs1 rs2 off => exact .inr (.inr (.inl ⟨.eq, rs1, rs2, off, by simp, rfl⟩))
  | bne rs1 rs2 off => exact .inr (.inr (.inl ⟨.ne, rs1, rs2, off, by simp, rfl⟩))
  | blt rs1 rs2 off => exact .inr (.inr (.inl ⟨.lt, rs1, rs2, off, by simp, rfl⟩))
  | bge rs1 rs2 off => exact .inr (.inr (.inl ⟨.ge, rs1, rs2, off, by simp, rfl⟩))
  | bltu rs1 rs2 off => exact .inr (.inr (.inl ⟨.ltu, rs1, rs2, off, by simp, rfl⟩))
  | bgeu rs1 rs2 off => exact .inr (.inr (.inl ⟨.geu, rs1, rs2, off, by simp, rfl⟩))
  | jal rd off => exact .inr (.inl ⟨rd, off, rfl, rfl⟩)
  | ecall => exact .inr (.inr (.inr (.inr (.inl ⟨rfl, rfl⟩))))

/-- Everything the step of one word can do. -/
theorem stepWord_cases (w : Word) (s : State) :
    (∃ i, decodeInstr w = .ok i ∧ stepWord w s = exec i s) ∨
    (∃ r, decodeInstr w = .error r ∧ stepWord w s = .fault (.unsupportedInstruction w)) := by
  unfold stepWord
  cases h : decodeInstr w with
  | ok i => exact .inl ⟨i, rfl, rfl⟩
  | error r => exact .inr ⟨r, rfl, rfl⟩

/-- Everything a run-step can do. -/
theorem step_cases (s : State) :
    (∃ w, fetch s = .ok w ∧ step s = stepWord w s) ∨
    (fetch s = .error (.outOfBoundsMemoryAccess s.pc .word) ∧ step s = .fault (.outOfBoundsMemoryAccess s.pc .word)) := by
  unfold step runStep
  rcases memRead_cases s.mem s.pc .word with ⟨-, he⟩ | ⟨-, he⟩
  · exact .inl ⟨_, he, by rw [fetch, he]⟩
  · exact .inr ⟨he, by rw [fetch, he]; rfl⟩

/-- One instruction ends in a next state or a fault, never in a refusal. -/
theorem exec_next_or_fault (i : Instr) (s : State) : (∃ t, exec i s = .next t) ∨ ∃ f, exec i s = .fault f := by
  rcases exec_cases i s with ⟨_, _, h⟩ | ⟨_, _, _, h⟩ | ⟨_, _, _, _, _, h⟩ | ⟨_, _, _, _, _, _, h⟩ | ⟨_, h⟩ | ⟨_, _, _, h⟩ <;>
    simp [h]

/-- What the next run-step does to a run. -/
theorem runProgram_next (n : Nat) (s t : State) (h : step s = .next t) :
    runProgram (n + 1) s = if t.ecall then .atEcall t else runProgram n t := by simp [runProgram, h]
theorem runProgram_fault (n : Nat) (s : State) (f : Fault) (h : step s = .fault f) :
    runProgram (n + 1) s = .atFault f s := by simp [runProgram, h]

end Sys2Proof.Machine
end

