-- ==== Sys2Proof/Laws/PerInstr.lean ====
section
/-! SUPPORT. The statement family EncodeMatchesRow: the word the encoder makes of an instruction carries the fixed bits of that
instruction's own row of the opcode table (INDEX.md: `(w & mask) == match`). One lemma per constructor. -/

namespace Sys2Proof

theorem and_append {m n : Nat} (a c : BitVec m) (b d : BitVec n) : (a ++ b) &&& (c ++ d) = (a &&& c) ++ (b &&& d) := by
  ext i hi
  simp only [BitVec.getElem_and, BitVec.getElem_append]
  split <;> rfl

section
variable (f7 : BitVec 7) (rs2 rs1 rd : RegIdx) (f3 : BitVec 3) (op : BitVec 7) (imm : Word)

theorem ones7 (v : BitVec 7) : v &&& 127#7 = v := BitVec.and_allOnes
theorem ones3 (v : BitVec 3) : v &&& 7#3 = v := BitVec.and_allOnes

theorem encR_fixed : encR f7 rs2 rs1 f3 rd op &&& 0xFE00707F#32 = encR f7 0#5 0#5 f3 0#5 op := by
  change (f7 ++ rs2 ++ rs1 ++ f3 ++ rd ++ op : BitVec (7 + 5 + 5 + 3 + 5 + 7)) &&& (127#7 ++ 0#5 ++ 0#5 ++ 7#3 ++ 0#5 ++ 127#7 : BitVec (7 + 5 + 5 + 3 + 5 + 7)) = _
  simp only [and_append, ones7, ones3, BitVec.and_zero]
  rfl

theorem encI_fixed : encI imm rs1 f3 rd op &&& 0x0000707F#32 = encI 0#32 0#5 f3 0#5 op := by
  change (imm.extractLsb' 0 12 ++ rs1 ++ f3 ++ rd ++ op : BitVec (12 + 5 + 3 + 5 + 7)) &&& (0#12 ++ 0#5 ++ 7#3 ++ 0#5 ++ 127#7 : BitVec (12 + 5 + 3 + 5 + 7)) = _
  simp only [and_append, ones7, ones3, BitVec.and_zero]
  rfl

theorem encS_fixed : encS imm rs2 rs1 f3 op &&& 0x0000707F#32 = encS 0#32 0#5 0#5 f3 op := by
  change (imm.extractLsb' 5 7 ++ rs2 ++ rs1 ++ f3 ++ imm.extractLsb' 0 5 ++ op : BitVec (7 + 5 + 5 + 3 + 5 + 7)) &&& (0#7 ++ 0#5 ++ 0#5 ++ 7#3 ++ 0#5 ++ 127#7 : BitVec (7 + 5 + 5 + 3 + 5 + 7)) = _
  simp only [and_append, ones7, ones3, BitVec.and_zero]
  rfl

theorem encSB_fixed : encSB imm rs2 rs1 f3 op &&& 0x0000707F#32 = encSB 0#32 0#5 0#5 f3 op := by
  change (imm.extractLsb' 12 1 ++ imm.extractLsb' 5 6 ++ rs2 ++ rs1 ++ f3 ++ imm.extractLsb' 1 4 ++ imm.extractLsb' 11 1 ++ op : BitVec (1 + 6 + 5 + 5 + 3 + 4 + 1 + 7)) &&& (0#1 ++ 0#6 ++ 0#5 ++ 0#5 ++ 7#3 ++ 0#4 ++ 0#1 ++ 127#7 : BitVec (1 + 6 + 5 + 5 + 3 + 4 + 1 + 7)) = _
  simp only [and_append, ones7, ones3, BitVec.and_zero]
  rfl

theorem encU_fixed : encU imm rd op &&& 0x0000007F#32 = encU 0#32 0#5 op := by
  change (imm.extractLsb' 12 20 ++ rd ++ op : BitVec (20 + 5 + 7)) &&& (0#20 ++ 0#5 ++ 127#7 : BitVec (20 + 5 + 7)) = _
  simp only [and_append, ones7, BitVec.and_zero]
  rfl

theorem encUJ_fixed : encUJ imm rd op &&& 0x0000007F#32 = encUJ 0#32 0#5 op := by
  change (imm.extractLsb' 20 1 ++ imm.extractLsb' 1 10 ++ imm.extractLsb' 11 1 ++ imm.extractLsb' 12 8 ++ rd ++ op : BitVec (1 + 10 + 1 + 8 + 5 + 7)) &&& (0#1 ++ 0#10 ++ 0#1 ++ 0#8 ++ 0#5 ++ 127#7 : BitVec (1 + 10 + 1 + 8 + 5 + 7)) = _
  simp only [and_append, ones7, BitVec.and_zero]
  rfl

end

end Sys2Proof

namespace Sys2Proof.Laws.EncodeMatchesRow

open Sys2Proof

/-- Some row of the table has the instruction's mnemonic and accepts the word the encoder makes of it. -/
def Statement (i : Instr) : Prop := ∃ r ∈ opcodeRows, r.mnemonic = i.mnemonic ∧ r.accepts (encode i) = true

/-- From a row to the statement. -/
theorem of_row (i : Instr) (r : OpRow) (hm : r ∈ opcodeRows) (hn : r.mnemonic = i.mnemonic)
    (h : encode i &&& r.mask = r.bits) : Statement i := ⟨r, hm, hn, by simp [OpRow.accepts, h]⟩

theorem add (rd rs1 rs2 : RegIdx) : Statement (.add rd rs1 rs2) :=
  of_row _ ⟨"ADD", 0xFE00707F#32, 0x00000033#32⟩ (by decide) rfl (encR_fixed ..)

theorem sub (rd rs1 rs2 : RegIdx) : Statement (.sub rd rs1 rs2) :=
  of_row _ ⟨"SUB", 0xFE00707F#32, 0x40000033#32⟩ (by decide) rfl (encR_fixed ..)

theorem sll (rd rs1 rs2 : RegIdx) : Statement (.sll rd rs1 rs2) :=
  of_row _ ⟨"SLL", 0xFE00707F#32, 0x00001033#32⟩ (by decide) rfl (encR_fixed ..)

theorem slt (rd rs1 rs2 : RegIdx) : Statement (.slt rd rs1 rs2) :=
  of_row _ ⟨"SLT", 0xFE00707F#32, 0x00002033#32⟩ (by decide) rfl (encR_fixed ..)

theorem sltu (rd rs1 rs2 : RegIdx) : Statement (.sltu rd rs1 rs2) :=
  of_row _ ⟨"SLTU", 0xFE00707F#32, 0x00003033#32⟩ (by decide) rfl (encR_fixed ..)

theorem xor (rd rs1 rs2 : RegIdx) : Statement (.xor rd rs1 rs2) :=
  of_row _ ⟨"XOR", 0xFE00707F#32, 0x00004033#32⟩ (by decide) rfl (encR_fixed ..)

theorem srl (rd rs1 rs2 : RegIdx) : Statement (.srl rd rs1 rs2) :=
  of_row _ ⟨"SRL", 0xFE00707F#32, 0x00005033#32⟩ (by decide) rfl (encR_fixed ..)

theorem sra (rd rs1 rs2 : RegIdx) : Statement (.sra rd rs1 rs2) :=
  of_row _ ⟨"SRA", 0xFE00707F#32, 0x40005033#32⟩ (by decide) rfl (encR_fixed ..)

theorem or (rd rs1 rs2 : RegIdx) : Statement (.or rd rs1 rs2) :=
  of_row _ ⟨"OR", 0xFE00707F#32, 0x00006033#32⟩ (by decide) rfl (encR_fixed ..)

theorem and (rd rs1 rs2 : RegIdx) : Statement (.and rd rs1 rs2) :=
  of_row _ ⟨"AND", 0xFE00707F#32, 0x00007033#32⟩ (by decide) rfl (encR_fixed ..)

theorem addi (rd rs1 : RegIdx) (imm : Word) : Statement (.addi rd rs1 imm) :=
  of_row _ ⟨"ADDI", 0x0000707F#32, 0x00000013#32⟩ (by decide) rfl (encI_fixed ..)

theorem slti (rd rs1 : RegIdx) (imm : Word) : Statement (.slti rd rs1 imm) :=
  of_row _ ⟨"SLTI", 0x0000707F#32, 0x00002013#32⟩ (by decide) rfl (encI_fixed ..)

theorem sltiu (rd rs1 : RegIdx) (imm : Word) : Statement (.sltiu rd rs1 imm) :=
  of_row _ ⟨"SLTIU", 0x0000707F#32, 0x00003013#32⟩ (by decide) rfl (encI_fixed ..)

theorem xori (rd rs1 : RegIdx) (imm : Word) : Statement (.xori rd rs1 imm) :=
  of_row _ ⟨"XORI", 0x0000707F#32, 0x00004013#32⟩ (by decide) rfl (encI_fixed ..)

theorem ori (rd rs1 : RegIdx) (imm : Word) : Statement (.ori rd rs1 imm) :=
  of_row _ ⟨"ORI", 0x0000707F#32, 0x00006013#32⟩ (by decide) rfl (encI_fixed ..)

theorem andi (rd rs1 : RegIdx) (imm : Word) : Statement (.andi rd rs1 imm) :=
  of_row _ ⟨"ANDI", 0x0000707F#32, 0x00007013#32⟩ (by decide) rfl (encI_fixed ..)

theorem slli (rd rs1 : RegIdx) (shamt : BitVec 5) : Statement (.slli rd rs1 shamt) :=
  of_row _ ⟨"SLLI", 0xFE00707F#32, 0x00001013#32⟩ (by decide) rfl (encR_fixed ..)

theorem srli (rd rs1 : RegIdx) (shamt : BitVec 5) : Statement (.srli rd rs1 shamt) :=
  of_row _ ⟨"SRLI", 0xFE00707F#32, 0x00005013#32⟩ (by decide) rfl (encR_fixed ..)

theorem srai (rd rs1 : RegIdx) (shamt : BitVec 5) : Statement (.srai rd rs1 shamt) :=
  of_row _ ⟨"SRAI", 0xFE00707F#32, 0x40005013#32⟩ (by decide) rfl (encR_fixed ..)

theorem lb (rd rs1 : RegIdx) (imm : Word) : Statement (.lb rd rs1 imm) :=
  of_row _ ⟨"LB", 0x0000707F#32, 0x00000003#32⟩ (by decide) rfl (encI_fixed ..)

theorem lh (rd rs1 : RegIdx) (imm : Word) : Statement (.lh rd rs1 imm) :=
  of_row _ ⟨"LH", 0x0000707F#32, 0x00001003#32⟩ (by decide) rfl (encI_fixed ..)

theorem lw (rd rs1 : RegIdx) (imm : Word) : Statement (.lw rd rs1 imm) :=
  of_row _ ⟨"LW", 0x0000707F#32, 0x00002003#32⟩ (by decide) rfl (encI_fixed ..)

theorem lbu (rd rs1 : RegIdx) (imm : Word) : Statement (.lbu rd rs1 imm) :=
  of_row _ ⟨"LBU", 0x0000707F#32, 0x00004003#32⟩ (by decide) rfl (encI_fixed ..)

theorem lhu (rd rs1 : RegIdx) (imm : Word) : Statement (.lhu rd rs1 imm) :=
  of_row _ ⟨"LHU", 0x0000707F#32, 0x00005003#32⟩ (by decide) rfl (encI_fixed ..)

theorem sb (rs1 rs2 : RegIdx) (imm : Word) : Statement (.sb rs1 rs2 imm) :=
  of_row _ ⟨"SB", 0x0000707F#32, 0x00000023#32⟩ (by decide) rfl (encS_fixed ..)

theorem sh (rs1 rs2 : RegIdx) (imm : Word) : Statement (.sh rs1 rs2 imm) :=
  of_row _ ⟨"SH", 0x0000707F#32, 0x00001023#32⟩ (by decide) rfl (encS_fixed ..)

theorem sw (rs1 rs2 : RegIdx) (imm : Word) : Statement (.sw rs1 rs2 imm) :=
  of_row _ ⟨"SW", 0x0000707F#32, 0x00002023#32⟩ (by decide) rfl (encS_fixed ..)

theorem beq (rs1 rs2 : RegIdx) (offset : Word) : Statement (.beq rs1 rs2 offset) :=
  of_row _ ⟨"BEQ", 0x0000707F#32, 0x00000063#32⟩ (by decide) rfl (encSB_fixed ..)

theorem bne (rs1 rs2 : RegIdx) (offset : Word) : Statement (.bne rs1 rs2 offset) :=
  of_row _ ⟨"BNE", 0x0000707F#32, 0x00001063#32⟩ (by decide) rfl (encSB_fixed ..)

theorem blt (rs1 rs2 : RegIdx) (offset : Word) : Statement (.blt rs1 rs2 offset) :=
  of_row _ ⟨"BLT", 0x0000707F#32, 0x00004063#32⟩ (by decide) rfl (encSB_fixed ..)

theorem bge (rs1 rs2 : RegIdx) (offset : Word) : Statement (.bge rs1 rs2 offset) :=
  of_row _ ⟨"BGE", 0x0000707F#32, 0x00005063#32⟩ (by decide) rfl (encSB_fixed ..)

theorem bltu (rs1 rs2 : RegIdx) (offset : Word) : Statement (.bltu rs1 rs2 offset) :=
  of_row _ ⟨"BLTU", 0x0000707F#32, 0x00006063#32⟩ (by decide) rfl (encSB_fixed ..)

theorem bgeu (rs1 rs2 : RegIdx) (offset : Word) : Statement (.bgeu rs1 rs2 offset) :=
  of_row _ ⟨"BGEU", 0x0000707F#32, 0x00007063#32⟩ (by decide) rfl (encSB_fixed ..)

theorem lui (rd : RegIdx) (imm : Word) : Statement (.lui rd imm) :=
  of_row _ ⟨"LUI", 0x0000007F#32, 0x00000037#32⟩ (by decide) rfl (encU_fixed ..)

theorem jal (rd : RegIdx) (offset : Word) : Statement (.jal rd offset) :=
  of_row _ ⟨"JAL", 0x0000007F#32, 0x0000006F#32⟩ (by decide) rfl (encUJ_fixed ..)

theorem ecall : Statement .ecall :=
  of_row _ ⟨"ECALL", 0xFFFFFFFF#32, 0x00000073#32⟩ (by decide) rfl (by decide)

end Sys2Proof.Laws.EncodeMatchesRow
end

