-- ==== Sys2Proof/Tests/Slice0.lean ====
section
/-! SUPPORT. Tests of the model, and the witnesses of the statements' hypotheses. Expected values are the spec's: the encodings of
30_encoding.md, the examples of the rules, and 95_test_vectors.md (V<n>, S<n>). -/

namespace Sys2Proof.Tests

open Sys2Proof Sys2Proof.Machine

/-! ### Helpers -/

/-- A state with MEM_SIZE = 0x10000, all zero but what is given. -/
def start (pc : Word) (regs : List (RegIdx × Word)) (cells : List Host.Cell) : State :=
  regs.foldl (fun s p => s.pokeReg p.1 p.2) ((State.reset.pokePc pc).pokeBytes cells)

/-- x1 and x2 given, pc = 0x1000. -/
def two (a b : Word) : State := start 0x1000#32 [(1#5, a), (2#5, b)] []

/-- The memory of V8: M[0x100..0x107] = EF BE AD DE 01 80 7F FF; x1 = 0x100, x2 = 0xA1B2C3D4. -/
def v8 : State :=
  start 0x1000#32 [(1#5, 0x100#32), (2#5, 0xA1B2C3D4#32)]
    [(0x100, 0xEF#8), (0x101, 0xBE#8), (0x102, 0xAD#8), (0x103, 0xDE#8),
     (0x104, 0x01#8), (0x105, 0x80#8), (0x106, 0x7F#8), (0x107, 0xFF#8)]

/-- The memory of V9: M[0xFFFC..0xFFFF] = 11 22 33 44; x1 given, x2 = 0xAABBCCDD. -/
def v9 (a : Word) : State :=
  start 0x1000#32 [(1#5, a), (2#5, 0xAABBCCDD#32)]
    [(0xFFFC, 0x11#8), (0xFFFD, 0x22#8), (0xFFFE, 0x33#8), (0xFFFF, 0x44#8)]

def regAfter (r : Result) (i : RegIdx) : Option Word :=
  match r with
  | .next t => some (t.readReg i)
  | _ => none

def pcAfter (r : Result) : Option Word :=
  match r with
  | .next t => some t.pc
  | _ => none

/-- The `n` bytes from `a` on. -/
def bytesAfter (r : Result) (a : Nat) (n : Nat) : Option (List Byte) :=
  match r with
  | .next t => some ((List.range n).map fun k => t.mem.byte (a + k))
  | _ => none

def faultOf (r : Result) : Option Fault :=
  match r with
  | .fault f => some f
  | _ => none

def ecallAfter (r : Result) : Option Bool :=
  match r with
  | .next t => some t.ecall
  | _ => none

def decodes (w : Word) : Bool :=
  match decodeInstr w with
  | .ok _ => true
  | .error _ => false

/-! ### Well-formedness: each check, at its edge and past it -/

theorem test_wellFormed_immediate12 :
    (Instr.addi 1 2 0x7FF#32).wellFormed = true ∧ (Instr.lw 1 2 0xFFFFF800#32).wellFormed = true ∧
    (Instr.addi 1 2 0x800#32).wellFormed = false ∧ (Instr.lw 1 2 0xFFFFF7FF#32).wellFormed = false := by decide

theorem test_wellFormed_store12 :
    (Instr.sw 1 2 0x7FF#32).wellFormed = true ∧ (Instr.sb 1 2 0xFFFFF800#32).wellFormed = true ∧
    (Instr.sw 1 2 0x800#32).wellFormed = false ∧ (Instr.sb 1 2 0xFFFFF7FF#32).wellFormed = false := by decide

theorem test_wellFormed_branch :
    (Instr.beq 1 2 0xFFE#32).wellFormed = true ∧ (Instr.bne 1 2 0xFFFFF000#32).wellFormed = true ∧
    (Instr.beq 1 2 0x1000#32).wellFormed = false ∧ (Instr.bne 1 2 0xFFFFEFFE#32).wellFormed = false ∧
    (Instr.blt 1 2 0x7#32).wellFormed = false := by decide

theorem test_wellFormed_upper :
    (Instr.lui 1 0xFFFFF000#32).wellFormed = true ∧ (Instr.lui 1 0x00001800#32).wellFormed = false := by decide

theorem test_wellFormed_jump :
    (Instr.jal 1 0xFFFFE#32).wellFormed = true ∧ (Instr.jal 1 0xFFF00000#32).wellFormed = true ∧
    (Instr.jal 1 0x100000#32).wellFormed = false ∧ (Instr.jal 1 0xFFEFFFFE#32).wellFormed = false ∧
    (Instr.jal 1 0x3#32).wellFormed = false := by decide

/-! ### Decoding: words written out field by field from 30_encoding.md (R81, R94 to R100) -/

/-- R94: funct7, rs2, rs1, funct3, rd, opcode. -/
theorem test_decode_register_alu :
    decodeInstr (0b0000000#7 ++ 0b00010#5 ++ 0b00001#5 ++ 0b000#3 ++ 0b00011#5 ++ 0b0110011#7) = .ok (.add 3 1 2) ∧
    decodeInstr (0b0100000#7 ++ 0b00010#5 ++ 0b00001#5 ++ 0b000#3 ++ 0b00011#5 ++ 0b0110011#7) = .ok (.sub 3 1 2) ∧
    decodeInstr (0b0000000#7 ++ 0b00010#5 ++ 0b00001#5 ++ 0b001#3 ++ 0b00011#5 ++ 0b0110011#7) = .ok (.sll 3 1 2) ∧
    decodeInstr (0b0000000#7 ++ 0b00010#5 ++ 0b00001#5 ++ 0b010#3 ++ 0b00011#5 ++ 0b0110011#7) = .ok (.slt 3 1 2) ∧
    decodeInstr (0b0000000#7 ++ 0b00010#5 ++ 0b00001#5 ++ 0b011#3 ++ 0b00011#5 ++ 0b0110011#7) = .ok (.sltu 3 1 2) ∧
    decodeInstr (0b0000000#7 ++ 0b00010#5 ++ 0b00001#5 ++ 0b100#3 ++ 0b00011#5 ++ 0b0110011#7) = .ok (.xor 3 1 2) ∧
    decodeInstr (0b0000000#7 ++ 0b00010#5 ++ 0b00001#5 ++ 0b101#3 ++ 0b00011#5 ++ 0b0110011#7) = .ok (.srl 3 1 2) ∧
    decodeInstr (0b0100000#7 ++ 0b00010#5 ++ 0b00001#5 ++ 0b101#3 ++ 0b00011#5 ++ 0b0110011#7) = .ok (.sra 3 1 2) ∧
    decodeInstr (0b0000000#7 ++ 0b00010#5 ++ 0b00001#5 ++ 0b110#3 ++ 0b00011#5 ++ 0b0110011#7) = .ok (.or 3 1 2) ∧
    decodeInstr (0b0000000#7 ++ 0b00010#5 ++ 0b00001#5 ++ 0b111#3 ++ 0b00011#5 ++ 0b0110011#7) = .ok (.and 3 1 2) := by
  decide

/-- R95: imm[11:0], rs1, funct3, rd, opcode; R91 for the shifts. -/
theorem test_decode_immediate_alu :
    decodeInstr (0b111111111011#12 ++ 0b00001#5 ++ 0b000#3 ++ 0b00011#5 ++ 0b0010011#7) = .ok (.addi 3 1 (-5)) ∧
    decodeInstr (0b111111111011#12 ++ 0b00001#5 ++ 0b010#3 ++ 0b00011#5 ++ 0b0010011#7) = .ok (.slti 3 1 (-5)) ∧
    decodeInstr (0b111111111011#12 ++ 0b00001#5 ++ 0b011#3 ++ 0b00011#5 ++ 0b0010011#7) = .ok (.sltiu 3 1 (-5)) ∧
    decodeInstr (0b111111111011#12 ++ 0b00001#5 ++ 0b100#3 ++ 0b00011#5 ++ 0b0010011#7) = .ok (.xori 3 1 (-5)) ∧
    decodeInstr (0b111111111011#12 ++ 0b00001#5 ++ 0b110#3 ++ 0b00011#5 ++ 0b0010011#7) = .ok (.ori 3 1 (-5)) ∧
    decodeInstr (0b111111111011#12 ++ 0b00001#5 ++ 0b111#3 ++ 0b00011#5 ++ 0b0010011#7) = .ok (.andi 3 1 (-5)) ∧
    decodeInstr (0b0000000#7 ++ 0b11111#5 ++ 0b00001#5 ++ 0b001#3 ++ 0b00011#5 ++ 0b0010011#7) = .ok (.slli 3 1 31) ∧
    decodeInstr (0b0000000#7 ++ 0b11111#5 ++ 0b00001#5 ++ 0b101#3 ++ 0b00011#5 ++ 0b0010011#7) = .ok (.srli 3 1 31) ∧
    decodeInstr (0b0100000#7 ++ 0b11111#5 ++ 0b00001#5 ++ 0b101#3 ++ 0b00011#5 ++ 0b0010011#7) = .ok (.srai 3 1 31) := by
  decide

/-- R96. -/
theorem test_decode_load :
    decodeInstr (0b111111111100#12 ++ 0b00001#5 ++ 0b000#3 ++ 0b00011#5 ++ 0b0000011#7) = .ok (.lb 3 1 (-4)) ∧
    decodeInstr (0b111111111100#12 ++ 0b00001#5 ++ 0b001#3 ++ 0b00011#5 ++ 0b0000011#7) = .ok (.lh 3 1 (-4)) ∧
    decodeInstr (0b111111111100#12 ++ 0b00001#5 ++ 0b010#3 ++ 0b00011#5 ++ 0b0000011#7) = .ok (.lw 3 1 (-4)) ∧
    decodeInstr (0b111111111100#12 ++ 0b00001#5 ++ 0b100#3 ++ 0b00011#5 ++ 0b0000011#7) = .ok (.lbu 3 1 (-4)) ∧
    decodeInstr (0b111111111100#12 ++ 0b00001#5 ++ 0b101#3 ++ 0b00011#5 ++ 0b0000011#7) = .ok (.lhu 3 1 (-4)) := by
  decide

/-- R97: imm[11:5], rs2, rs1, funct3, imm[4:0], opcode; the immediate is -29 (imm[11:5] = 1111111, imm[4:0] = 00011). -/
theorem test_decode_store :
    decodeInstr (0b1111111#7 ++ 0b00010#5 ++ 0b00001#5 ++ 0b000#3 ++ 0b00011#5 ++ 0b0100011#7) = .ok (.sb 1 2 (-29)) ∧
    decodeInstr (0b1111111#7 ++ 0b00010#5 ++ 0b00001#5 ++ 0b001#3 ++ 0b00011#5 ++ 0b0100011#7) = .ok (.sh 1 2 (-29)) ∧
    decodeInstr (0b1111111#7 ++ 0b00010#5 ++ 0b00001#5 ++ 0b010#3 ++ 0b00011#5 ++ 0b0100011#7) = .ok (.sw 1 2 (-29)) := by
  decide

/-- R98: imm[12], imm[10:5], rs2, rs1, funct3, imm[4:1], imm[11], opcode; the offset is -8. -/
theorem test_decode_branch :
    decodeInstr (0b1#1 ++ 0b111111#6 ++ 0b00010#5 ++ 0b00001#5 ++ 0b000#3 ++ 0b1100#4 ++ 0b1#1 ++ 0b1100011#7)
      = .ok (.beq 1 2 (-8)) ∧
    decodeInstr (0b1#1 ++ 0b111111#6 ++ 0b00010#5 ++ 0b00001#5 ++ 0b001#3 ++ 0b1100#4 ++ 0b1#1 ++ 0b1100011#7)
      = .ok (.bne 1 2 (-8)) ∧
    decodeInstr (0b1#1 ++ 0b111111#6 ++ 0b00010#5 ++ 0b00001#5 ++ 0b100#3 ++ 0b1100#4 ++ 0b1#1 ++ 0b1100011#7)
      = .ok (.blt 1 2 (-8)) ∧
    decodeInstr (0b1#1 ++ 0b111111#6 ++ 0b00010#5 ++ 0b00001#5 ++ 0b101#3 ++ 0b1100#4 ++ 0b1#1 ++ 0b1100011#7)
      = .ok (.bge 1 2 (-8)) ∧
    decodeInstr (0b1#1 ++ 0b111111#6 ++ 0b00010#5 ++ 0b00001#5 ++ 0b110#3 ++ 0b1100#4 ++ 0b1#1 ++ 0b1100011#7)
      = .ok (.bltu 1 2 (-8)) ∧
    decodeInstr (0b1#1 ++ 0b111111#6 ++ 0b00010#5 ++ 0b00001#5 ++ 0b111#3 ++ 0b1100#4 ++ 0b1#1 ++ 0b1100011#7)
      = .ok (.bgeu 1 2 (-8)) := by
  decide

/-- R99: LUI; JAL as imm[20], imm[10:1], imm[11], imm[19:12], rd, opcode, the offset 0x7F802 (imm[10:1] = 0000000001,
imm[11] = 1, imm[19:12] = 01111111); R100: the one word of ECALL. -/
theorem test_decode_upper_jump_system :
    decodeInstr (0b11011110101011011100#20 ++ 0b00101#5 ++ 0b0110111#7) = .ok (.lui 5 0xDEADC000#32) ∧
    decodeInstr (0b0#1 ++ 0b0000000001#10 ++ 0b1#1 ++ 0b01111111#8 ++ 0b00001#5 ++ 0b1101111#7) = .ok (.jal 1 0x7F802#32) ∧
    decodeInstr (0b000000000000#12 ++ 0b00000#5 ++ 0b000#3 ++ 0b00000#5 ++ 0b1110011#7) = .ok .ecall := by
  decide

/-- V3: immediates with one bit set, or at the end of the range. -/
theorem test_immediates :
    immI 0x80000013#32 = 0xFFFFF800#32 ∧ immI 0x7FF00013#32 = 0x7FF#32 ∧ immS 0x7E002FA3#32 = 0x7FF#32 ∧
    immS 0x80002023#32 = 0xFFFFF800#32 ∧ immSB 0x000000E3#32 = 0x800#32 ∧ immSB 0x00000163#32 = 0x2#32 ∧
    immSB 0x80000063#32 = 0xFFFFF000#32 ∧ immU 0xDEADC2B7#32 = 0xDEADC000#32 ∧ immUJ 0x0010006F#32 = 0x800#32 ∧
    immUJ 0x0020006F#32 = 0x2#32 ∧ immUJ 0x000FF06F#32 = 0xFF000#32 ∧ immUJ 0x8000006F#32 = 0xFFF00000#32 := by
  decide

/-- V12: words of every clause of R101. -/
theorem test_unsupported_words :
    [0x00000000#32, 0xFFFFFFFF#32, 0x00000017#32, 0x00008067#32, 0x0FF0000F#32, 0x02208033#32, 0x40209033#32, 0x4020C1B3#32,
     0x0000B003#32, 0x0000E003#32, 0x0000F003#32, 0x0020B023#32, 0x0020C023#32, 0x00002063#32, 0x00003063#32, 0x00100073#32,
     0x30200073#32, 0x10500073#32, 0xC0002073#32, 0x00001073#32, 0x00000173#32, 0x00008073#32, 0x00000091#32, 0x00000001#32,
     0x40009193#32, 0x0200D193#32, 0x02009193#32].all (fun w => !decodes w) = true := by
  decide

theorem test_decodeTableWord :
    decodeTableWord 32 0x002081B3 = some (.add 3 1 2) ∧ decodeTableWord 32 0 = none ∧
    decodeBytes [0xB3#8, 0x81#8, 0x20#8] = .error .truncated := by decide

/-! ### Reset and memory -/

theorem test_reset :
    State.reset.Inv ∧ State.reset.pc = 0#32 ∧ State.reset.readReg 31#5 = 0#32 ∧ State.reset.mem.cells = [] := by decide

/-- Nothing is placed, so the first word fetched is zero (P7 (b), log 6). -/
theorem test_step_from_reset : faultOf (step State.reset) = some (.unsupportedInstruction 0#32) := by decide

/-- A placed word runs first; writing zeros back gives the same data. -/
theorem test_withFetchWord :
    regAfter (step (State.reset.withFetchWord 32 0x00500093)) 1#5 = some 5#32 ∧
    (State.reset.withFetchWord 32 0x00500093).withFetchWord 32 0 = State.reset := by decide

theorem test_memory_is_canonical :
    ((State.reset.pokeByte 7 1#8).pokeByte 3 2#8).mem.cells = [(3, 2#8), (7, 1#8)] ∧
    ((State.reset.pokeByte 7 1#8).pokeByte 7 0#8).mem.cells = [] ∧
    (State.reset.pokeByte 0x10000 1#8).mem.cells = [] := by decide

/-- The fetch at the end of memory (P7 (a)). -/
theorem test_fetch_out_of_bounds :
    faultOf (step (State.reset.pokePc 0x10000#32)) = some (.outOfBoundsMemoryAccess 0x10000#32 .word) ∧
    faultOf (step (State.reset.pokePc 0xFFFFFFFC#32)) = some (.outOfBoundsMemoryAccess 0xFFFFFFFC#32 .word) := by decide

/-! ### One step per instruction, from the word (V4 to V12) -/

/-- V4, row 3 and the others named: x1 = 0x80000000, x2 = 0xFFFFFFFF. -/
theorem test_add : regAfter (stepWord 0x002081B3#32 (two 0x80000000#32 0xFFFFFFFF#32)) 3#5 = some 0x7FFFFFFF#32 := by decide
theorem test_sub : regAfter (stepWord 0x402081B3#32 (two 0x80000000#32 0xFFFFFFFF#32)) 3#5 = some 0x80000001#32 := by decide
theorem test_sll : regAfter (stepWord 0x002091B3#32 (two 0xDEADBEEF#32 0x24#32)) 3#5 = some 0xEADBEEF0#32 := by decide
theorem test_slt : regAfter (stepWord 0x0020A1B3#32 (two 0x80000000#32 0x1F#32)) 3#5 = some 1#32 := by decide
theorem test_sltu : regAfter (stepWord 0x0020B1B3#32 (two 0x80000000#32 0x1F#32)) 3#5 = some 0#32 := by decide
theorem test_xor : regAfter (stepWord 0x0020C1B3#32 (two 0xDEADBEEF#32 0x24#32)) 3#5 = some 0xDEADBECB#32 := by decide
theorem test_srl : regAfter (stepWord 0x0020D1B3#32 (two 0xDEADBEEF#32 0x24#32)) 3#5 = some 0x0DEADBEE#32 := by decide
theorem test_sra : regAfter (stepWord 0x4020D1B3#32 (two 0xDEADBEEF#32 0x24#32)) 3#5 = some 0xFDEADBEE#32 := by decide
theorem test_or : regAfter (stepWord 0x0020E1B3#32 (two 0x80000000#32 0x1F#32)) 3#5 = some 0x8000001F#32 := by decide
theorem test_and : regAfter (stepWord 0x0020F1B3#32 (two 0xDEADBEEF#32 0x24#32)) 3#5 = some 0x24#32 := by decide
/-- V4 row 6: a shift by 0x20 shifts by 0. -/
theorem test_shift_by_32 : regAfter (stepWord 0x4020D1B3#32 (two 0x80000000#32 0x20#32)) 3#5 = some 0x80000000#32 := by decide
/-- V5: the destination is both sources; and x0 takes nothing. -/
theorem test_add_destinations :
    regAfter (stepWord 0x001080B3#32 (two 0x40000001#32 0#32)) 1#5 = some 0x80000002#32 ∧
    regAfter (stepWord 0x00208033#32 (two 3#32 4#32)) 0#5 = some 0#32 ∧
    pcAfter (stepWord 0x00208033#32 (two 3#32 4#32)) = some 0x1004#32 := by decide

/-- V6, imm = -5 with x1 = 5, and the last row. -/
theorem test_addi : regAfter (stepWord 0xFFB08193#32 (two 5#32 0#32)) 3#5 = some 0#32 := by decide
theorem test_slti : regAfter (stepWord 0xFFB0A193#32 (two 5#32 0#32)) 3#5 = some 0#32 := by decide
theorem test_sltiu : regAfter (stepWord 0xFFB0B193#32 (two 5#32 0#32)) 3#5 = some 1#32 := by decide
theorem test_xori : regAfter (stepWord 0xFFB0C193#32 (two 5#32 0#32)) 3#5 = some 0xFFFFFFFE#32 := by decide
theorem test_ori : regAfter (stepWord 0xFFB0E193#32 (two 5#32 0#32)) 3#5 = some 0xFFFFFFFF#32 := by decide
theorem test_andi : regAfter (stepWord 0xFFB0F193#32 (two 5#32 0#32)) 3#5 = some 1#32 := by decide
/-- V7. -/
theorem test_slli : regAfter (stepWord 0x00409193#32 (two 0x80000001#32 0#32)) 3#5 = some 0x10#32 := by decide
theorem test_srli : regAfter (stepWord 0x0040D193#32 (two 0x80000001#32 0#32)) 3#5 = some 0x08000000#32 := by decide
theorem test_srai : regAfter (stepWord 0x4040D193#32 (two 0x80000001#32 0#32)) 3#5 = some 0xF8000000#32 := by decide

/-- V8, unaligned. -/
theorem test_lb : regAfter (stepWord 0x00508183#32 v8) 3#5 = some 0xFFFFFF80#32 := by decide
theorem test_lh : regAfter (stepWord 0x00109183#32 v8) 3#5 = some 0xFFFFADBE#32 := by decide
theorem test_lw : regAfter (stepWord 0x0030A183#32 v8) 3#5 = some 0x7F8001DE#32 := by decide
theorem test_lbu : regAfter (stepWord 0x0050C183#32 v8) 3#5 = some 0x80#32 := by decide
theorem test_lhu : regAfter (stepWord 0x0010D183#32 v8) 3#5 = some 0xADBE#32 := by decide
/-- V8, V9: the base is read before it is overwritten; the address wraps, the bounds check does not; a load of x0 checks all
the same. -/
theorem test_lw_base_and_bounds :
    regAfter (stepWord 0xFFC0A083#32 (v8.pokeReg 1#5 0x104#32)) 1#5 = some 0xDEADBEEF#32 ∧
    faultOf (stepWord 0x0000A183#32 (v9 0xFFFFFFFE#32)) = some (.outOfBoundsMemoryAccess 0xFFFFFFFE#32 .word) ∧
    faultOf (stepWord 0x0000A003#32 (v9 0x10000#32)) = some (.outOfBoundsMemoryAccess 0x10000#32 .word) ∧
    regAfter (stepWord 0x0080A183#32 (v9 0xFFFFFFFC#32)) 3#5 = some 0#32 ∧
    regAfter (stepWord 0xFFC0A183#32 (v9 0x10000#32)) 3#5 = some 0x44332211#32 := by decide
theorem test_sb : bytesAfter (stepWord 0x002083A3#32 v8) 0x104 4 = some [0x01#8, 0x80#8, 0x7F#8, 0xD4#8] := by decide
theorem test_sh : bytesAfter (stepWord 0x002090A3#32 v8) 0x100 4 = some [0xEF#8, 0xD4#8, 0xC3#8, 0xDE#8] := by decide
theorem test_sw : bytesAfter (stepWord 0x0020A1A3#32 v8) 0x102 6
    = some [0xAD#8, 0xD4#8, 0xC3#8, 0xB2#8, 0xA1#8, 0xFF#8] := by decide
/-- V9: no partial write. -/
theorem test_sw_partly_out_of_bounds :
    faultOf (stepWord 0x0020A023#32 (v9 0xFFFD#32)) = some (.outOfBoundsMemoryAccess 0xFFFD#32 .word) ∧
    (afterStep (v9 0xFFFD#32) (stepWord 0x0020A023#32 (v9 0xFFFD#32))).mem = (v9 0#32).mem := by decide

/-- V10: signed against unsigned (x1 = 0x80000000, x2 = 0x7FFFFFFF), offset -8. -/
theorem test_beq : pcAfter (stepWord 0xFE208CE3#32 (two 5#32 5#32)) = some 0xFF8#32 := by decide
theorem test_bne : pcAfter (stepWord 0xFE209CE3#32 (two 5#32 5#32)) = some 0x1004#32 := by decide
theorem test_blt : pcAfter (stepWord 0xFE20CCE3#32 (two 0x80000000#32 0x7FFFFFFF#32)) = some 0xFF8#32 := by decide
theorem test_bge : pcAfter (stepWord 0xFE20DCE3#32 (two 0x80000000#32 0x7FFFFFFF#32)) = some 0x1004#32 := by decide
theorem test_bltu : pcAfter (stepWord 0xFE20ECE3#32 (two 0x80000000#32 0x7FFFFFFF#32)) = some 0x1004#32 := by decide
theorem test_bgeu : pcAfter (stepWord 0xFE20FCE3#32 (two 0x80000000#32 0x7FFFFFFF#32)) = some 0xFF8#32 := by decide
/-- V10: the target wraps, and need not be aligned. -/
theorem test_branch_target :
    pcAfter (stepWord 0xFE000CE3#32 (start 4#32 [] [])) = some 0xFFFFFFFC#32 ∧
    pcAfter (stepWord 0x00000363#32 (start 0x1000#32 [] [])) = some 0x1006#32 := by decide
/-- V11. -/
theorem test_lui : regAfter (stepWord 0xFFFFF2B7#32 (two 0#32 0#32)) 5#5 = some 0xFFFFF000#32 := by decide
theorem test_jal :
    pcAfter (stepWord 0x800FF2EF#32 (two 0#32 0#32)) = some 0#32 ∧
    regAfter (stepWord 0x800FF2EF#32 (two 0#32 0#32)) 5#5 = some 0x1004#32 := by decide
theorem test_jal_wraps :
    pcAfter (stepWord 0x008000EF#32 (start 0xFFFFFFFC#32 [] [])) = some 4#32 ∧
    regAfter (stepWord 0x008000EF#32 (start 0xFFFFFFFC#32 [] [])) 1#5 = some 0#32 := by decide
/-- V12. -/
theorem test_ecall :
    pcAfter (stepWord 0x00000073#32 (two 0#32 0#32)) = some 0x1004#32 ∧
    ecallAfter (stepWord 0x00000073#32 (two 0#32 0#32)) = some true ∧
    ecallAfter (stepWord 0x00500093#32 (two 0#32 0#32)) = some false := by decide
/-- V12: decoding comes before the address (R246). -/
theorem test_unsupported_before_bounds :
    faultOf (stepWord 0x0000B003#32 (two 0x10000#32 0#32)) = some (.unsupportedInstruction 0x0000B003#32) := by decide
/-- The step's outputs (R34, R241, R242). -/
theorem test_report :
    report (two 0x10000#32 0#32) (stepWord 0x00009183#32 (two 0x10000#32 0#32))
      = some ⟨false, 2#2, some 0x10000#32, 2#3, false, 0x1000#32⟩ := by decide

/-! ### Witnesses: for each statement with hypotheses, concrete data that meet them, clause by clause, at the edges -/

/-- MEM_SIZE = 0x10000, pc = 0xFFFC, the last place a word can be fetched from; the word there is ADDI x1, x0, 5. -/
def atEnd : State := (State.reset.pokePc 0xFFFC#32).withFetchWord 32 0x00500093

/-- The largest memory, MEM_SIZE = 2^32, and the smallest, MEM_SIZE = 1. -/
def largest : Memory := { size := 2 ^ 32, cells := [] }
def smallest : Memory := { size := 1, cells := [] }

theorem witness_ImmediatesIAndSAreReassembled :
    (0xFFF00093#32).extractLsb' 20 12 = 0xFFF#12 ∧ (0x7FF00013#32).extractLsb' 20 12 = 0x7FF#12 ∧
    (0x80000013#32).extractLsb' 20 12 = 0x800#12 ∧ (0x00500093#32).extractLsb' 20 12 = 0x005#12 := by decide

theorem witness_ImmediatesSBAndUAndUJAreReassembled :
    (0x00001000#32).toNat % 4096 = 0 ∧ (0xFFFFF000#32).toNat % 4096 = 0 := by decide

/-- Well-formed instructions of every layout at its edges: test_wellFormed_*. -/
theorem witness_DecodeInvertsEncode :
    (Instr.sra 31 31 31).wellFormed = true ∧ (Instr.srai 31 31 31).wellFormed = true ∧ Instr.ecall.wellFormed = true ∧
    (Instr.jal 31 0xFFFFE#32).wellFormed = true ∧ (Instr.bgeu 31 31 0xFFFFF000#32).wellFormed = true := by decide

theorem witness_EncodeInvertsDecode :
    decodeInstr 0x41FFDFB3#32 = .ok (.sra 31 31 31) ∧ decodeInstr 0xFE208E23#32 = .ok (.sb 1 2 (-4)) := by decide

theorem witness_SupportedWordsAreTheTableRows :
    decodeInstr 0x00000073#32 = .ok .ecall ∧ (⟨"ECALL", 0xFFFFFFFF#32, 0x00000073#32⟩ : OpRow) ∈ opcodeRows := by decide

/-- One word for each clause (a) to (g) of R101, and one for none. -/
theorem witness_UnsupportedSpaceIsComplete :
    [0x00000017#32, 0x02208033#32, 0x40009193#32, 0x0000B003#32, 0x0020B023#32, 0x00002063#32, 0x00100073#32].all
      (fun w => !decodes w) = true ∧ decodes 0x00000073#32 = true := by decide

/-- One word for each variant (V2). -/
theorem witness_VariantIsChosenByMajorOpcode :
    (0x002081B3#32).extractLsb' 0 7 = 0x33#7 ∧ (0x00500093#32).extractLsb' 0 7 = 0x13#7 ∧
    (0x0000A183#32).extractLsb' 0 7 = 0x03#7 ∧ (0x0020A023#32).extractLsb' 0 7 = 0x23#7 ∧
    (0xFE208CE3#32).extractLsb' 0 7 = 0x63#7 ∧ (0xDEADC2B7#32).extractLsb' 0 7 = 0x37#7 ∧
    (0x010000EF#32).extractLsb' 0 7 = 0x6F#7 ∧ (0x00000073#32).extractLsb' 0 7 = 0x73#7 ∧
    (0x00000017#32).extractLsb' 0 7 ∉ [0x33#7, 0x13#7, 0x03#7, 0x23#7, 0x63#7, 0x37#7, 0x6F#7, 0x73#7] := by decide

theorem witness_RegisterRegisterCommonBehaviour :
    (0x4020D1B3#32).extractLsb' 0 7 = 0b0110011#7 ∧ decodeInstr 0x4020D1B3#32 = .ok (.sra 3 1 2) := by decide

/-- An immediate, the three shifts, and the two refused forms of a shift. -/
theorem witness_RegisterImmediateCommonBehaviour :
    [0xFFB08193#32, 0x00409193#32, 0x0040D193#32, 0x4040D193#32, 0x40009193#32, 0x0200D193#32].all
      (fun w => w.extractLsb' 0 7 == 0b0010011#7) = true ∧
    decodeInstr 0xFFB08193#32 = .ok (.addi 3 1 (-5)) ∧ decodeInstr 0x00409193#32 = .ok (.slli 3 1 4) ∧
    decodeInstr 0x0040D193#32 = .ok (.srli 3 1 4) ∧ decodeInstr 0x4040D193#32 = .ok (.srai 3 1 4) ∧
    (0x40009193#32).extractLsb' 12 3 = 0b001#3 ∧ (0x40009193#32).extractLsb' 25 7 = 0b0100000#7 ∧
    (0x0200D193#32).extractLsb' 12 3 = 0b101#3 ∧ (0x0200D193#32).extractLsb' 25 7 = 0b0000001#7 := by decide

/-- LW x3, 0(x1) at the last admitted address and one past it; the fault it raises there. -/
theorem witness_LoadReadPath :
    (0x0000A183#32).extractLsb' 0 7 = 0b0000011#7 ∧ decodeInstr 0x0000A183#32 = .ok (.lw 3 1 0) ∧
    ((v9 0xFFFC#32).readReg 1#5 + 0#32).toNat + Width.word.bytes ≤ (v9 0xFFFC#32).mem.size ∧
    (v9 0xFFFD#32).mem.size < ((v9 0xFFFD#32).readReg 1#5 + 0#32).toNat + Width.word.bytes ∧
    exec (.lw 3 1 0#32) (v9 0xFFFD#32) = .fault (.outOfBoundsMemoryAccess 0xFFFD#32 .word) := by
  exact ⟨by decide, by decide, by decide, by decide, rfl⟩

theorem witness_ByteLoadResults :
    ((v9 0xFFFF#32).readReg 1#5 + 0#32).toNat + 1 ≤ (v9 0xFFFF#32).mem.size := by decide

theorem witness_HalfwordLoadResults :
    ((v9 0xFFFE#32).readReg 1#5 + 0#32).toNat + 2 ≤ (v9 0xFFFE#32).mem.size := by decide

theorem witness_WordLoadResult :
    ((v9 0xFFFC#32).readReg 1#5 + 0#32).toNat + 4 ≤ (v9 0xFFFC#32).mem.size := by decide

/-- SW x2, 0(x1) at the last admitted address and one past it; the fault it raises there. -/
theorem witness_StoreWritePath :
    (0x0020A023#32).extractLsb' 0 7 = 0b0100011#7 ∧ decodeInstr 0x0020A023#32 = .ok (.sw 1 2 0) ∧
    (v9 0xFFFC#32).Inv ∧ ((v9 0xFFFC#32).readReg 1#5 + 0#32).toNat + Width.word.bytes ≤ (v9 0xFFFC#32).mem.size ∧
    (v9 0xFFFD#32).Inv ∧ (v9 0xFFFD#32).mem.size < ((v9 0xFFFD#32).readReg 1#5 + 0#32).toNat + Width.word.bytes ∧
    exec (.sw 1 2 0#32) (v9 0xFFFD#32) = .fault (.outOfBoundsMemoryAccess 0xFFFD#32 .word) := by
  exact ⟨by decide, by decide, by decide, by decide, by decide, by decide, rfl⟩

theorem witness_StoreResults :
    ((v9 0xFFFF#32).Inv ∧ (effectiveAddress (v9 0xFFFF#32) 1#5 0#32).toNat + 1 ≤ (v9 0xFFFF#32).mem.size) ∧
    ((v9 0xFFFE#32).Inv ∧ (effectiveAddress (v9 0xFFFE#32) 1#5 0#32).toNat + 2 ≤ (v9 0xFFFE#32).mem.size) ∧
    ((v9 0xFFFC#32).Inv ∧ (effectiveAddress (v9 0xFFFC#32) 1#5 0#32).toNat + 4 ≤ (v9 0xFFFC#32).mem.size) := by decide

theorem witness_AccessOutOfBoundsFaults :
    (v9 0x10000#32).mem.size < ((v9 0x10000#32).readReg 1#5 + 0#32).toNat + 1 ∧
    (v9 0xFFFF#32).mem.size < ((v9 0xFFFF#32).readReg 1#5 + 0#32).toNat + 2 ∧
    (v9 0xFFFD#32).mem.size < ((v9 0xFFFD#32).readReg 1#5 + 0#32).toNat + 4 := by decide

theorem witness_LoadAfterStoreReturnsTheBytes :
    ((v9 0xFFFF#32).Inv ∧ ∃ t, exec (.sb 1 2 0#32) (v9 0xFFFF#32) = .next t) ∧
    ((v9 0xFFFE#32).Inv ∧ ∃ t, exec (.sh 1 2 0#32) (v9 0xFFFE#32) = .next t) ∧
    ((v9 0xFFFC#32).Inv ∧ ∃ t, exec (.sw 1 2 0#32) (v9 0xFFFC#32) = .next t) :=
  ⟨⟨by decide, _, rfl⟩, ⟨by decide, _, rfl⟩, ⟨by decide, _, rfl⟩⟩

/-- The largest memory admits a word at 0xFFFFFFFC and not at 0xFFFFFFFD (V9). -/
theorem witness_MemReadIsTheLittleEndianSum :
    (0xFFFFFFFC#32).toNat + Width.word.bytes ≤ largest.size ∧ largest.size < (0xFFFFFFFD#32).toNat + Width.word.bytes := by
  decide

theorem witness_MemWriteWritesExactlyItsCells :
    largest.wf ∧ (0xFFFFFFFE#32).toNat + Width.half.bytes ≤ largest.size ∧
    largest.size < (0xFFFFFFFF#32).toNat + Width.half.bytes := by decide

/-- The clauses in their order, with the smallest memory for the last admitted byte; the load and store one past the end. -/
theorem witness_BoundsCheckDoesNotWrap :
    (largest.sizeOk ∧ 2 ^ 32 < (0xFFFFFFFE#32).toNat + Width.word.bytes) ∧
    ((0xFFFF#32).toNat < (v9 0#32).mem.size ∧ (v9 0#32).mem.size < (0xFFFF#32).toNat + Width.half.bytes) ∧
    (Width.byte.bytes ≤ smallest.size ∧ (0#32).toNat = smallest.size - Width.byte.bytes) ∧
    (Width.word.bytes ≤ largest.size ∧ (0xFFFFFFFC#32).toNat = largest.size - Width.word.bytes) ∧
    (1#32).toNat = smallest.size ∧
    ((v9 0x10000#32).readReg 1#5 + 0#32 = 0x10000#32 ∧ (0x10000#32).toNat = (v9 0x10000#32).mem.size) := by decide

theorem witness_WordsLieLittleEndian :
    largest.wf ∧ largest.sizeOk ∧ (0xFFFFFFFC#32).toNat + 4 ≤ largest.size := by decide

theorem witness_LoadUpperImmediateResult : (0xDEADC2B7#32).extractLsb' 0 7 = 0b0110111#7 := by decide

theorem witness_LuiThenAddiBuildsAnyConstant : (31#5 : RegIdx) ≠ 0#5 := by decide

theorem witness_RegisterZeroReadsZero :
    (∃ t, exec (.add 3 0 2) (two 1#32 2#32) = .next t) ∧
    exec (.lw 3 0 0xFFFFFFFF#32) (two 1#32 2#32) = .fault (.outOfBoundsMemoryAccess 0xFFFFFFFF#32 .word) :=
  ⟨⟨_, rfl⟩, rfl⟩

/-- The load clause at the last admitted address of each width and one past it. -/
theorem witness_WriteToRegisterZeroIsDiscarded :
    (((v9 0xFFFF#32).readReg 1#5 + 0#32).toNat + Width.byte.bytes ≤ (v9 0xFFFF#32).mem.size ∧
      ((v9 0xFFFE#32).readReg 1#5 + 0#32).toNat + Width.half.bytes ≤ (v9 0xFFFE#32).mem.size ∧
      ((v9 0xFFFC#32).readReg 1#5 + 0#32).toNat + Width.word.bytes ≤ (v9 0xFFFC#32).mem.size) ∧
    ((v9 0x10000#32).mem.size < ((v9 0x10000#32).readReg 1#5 + 0#32).toNat + Width.byte.bytes ∧
      (v9 0xFFFF#32).mem.size < ((v9 0xFFFF#32).readReg 1#5 + 0#32).toNat + Width.half.bytes ∧
      (v9 0xFFFD#32).mem.size < ((v9 0xFFFD#32).readReg 1#5 + 0#32).toNat + Width.word.bytes) := by decide

theorem witness_StepRunsTheDecodedInstruction :
    atEnd.pc.toNat + 4 ≤ atEnd.mem.size ∧
    decodeInstr (atEnd.mem.byte (atEnd.pc.toNat + 3) ++ atEnd.mem.byte (atEnd.pc.toNat + 2) ++
      atEnd.mem.byte (atEnd.pc.toNat + 1) ++ atEnd.mem.byte atEnd.pc.toNat) = .ok (.addi 1 0 5) := by decide

theorem witness_StepFaultsBeforeExecuting :
    (State.reset.pokePc 0xFFFD#32).mem.size < (State.reset.pokePc 0xFFFD#32).pc.toNat + 4 ∧
    State.reset.pc.toNat + 4 ≤ State.reset.mem.size ∧
    decodeInstr (State.reset.mem.byte (State.reset.pc.toNat + 3) ++ State.reset.mem.byte (State.reset.pc.toNat + 2) ++
      State.reset.mem.byte (State.reset.pc.toNat + 1) ++ State.reset.mem.byte State.reset.pc.toNat)
      = .error .unsupportedOpcode := by decide

theorem witness_PlacedWordIsTheNextOneRun :
    (State.reset.pokePc 0xFFFC#32).Inv ∧
    (State.reset.pokePc 0xFFFC#32).pc.toNat + 4 ≤ (State.reset.pokePc 0xFFFC#32).mem.size := by decide

/-- SW x2, 0(x1) with x1 = pc + 4 = 0xFFFC, the last place a word fits. -/
def selfModifying : State := start 0xFFF8#32 [(1#5, 0xFFFC#32), (2#5, 0x00500093#32)] []

theorem witness_StoreIsSeenByTheNextFetch :
    selfModifying.Inv ∧ effectiveAddress selfModifying 1#5 0#32 = selfModifying.pc + 4#32 ∧
    ∃ t, exec (.sw 1 2 0#32) selfModifying = .next t :=
  ⟨by decide, by decide, _, rfl⟩

theorem witness_StepIsTotal :
    decodeInstr 0x00002063#32 = .error .unsupportedFunct ∧ decodeInstr 0x00000063#32 = .ok (.beq 0 0 0) := by decide

theorem witness_UnsupportedWordIsReported : ∀ i, decodeInstr 0xFFFFFFFF#32 ≠ .ok i := by
  intro i h
  rw [show decodeInstr 0xFFFFFFFF#32 = .error .unsupportedOpcode by decide] at h
  cases h

/-- A fault of each width, and a next state with and without the ecall event. -/
theorem witness_OutputsOfAStep :
    stepWord 0x0000C183#32 (v9 0x10000#32) = .fault (.outOfBoundsMemoryAccess 0x10000#32 .byte) ∧
    stepWord 0x00009183#32 (v9 0xFFFF#32) = .fault (.outOfBoundsMemoryAccess 0xFFFF#32 .half) ∧
    stepWord 0x0020A023#32 (v9 0xFFFD#32) = .fault (.outOfBoundsMemoryAccess 0xFFFD#32 .word) ∧
    (∃ t, stepWord 0x00000073#32 (v9 0#32) = .next t) ∧ ∃ t, stepWord 0x00500093#32 (v9 0#32) = .next t :=
  ⟨rfl, rfl, rfl, ⟨_, rfl⟩, ⟨_, rfl⟩⟩

theorem witness_FaultLeavesTheStateUnchanged :
    stepWord 0x0020A023#32 (v9 0xFFFD#32) = .fault (.outOfBoundsMemoryAccess 0xFFFD#32 .word) ∧
    stepWord 0x00000000#32 (v9 0#32) = .fault (.unsupportedInstruction 0#32) ∧
    step (State.reset.pokePc 0xFFFD#32) = .fault (.outOfBoundsMemoryAccess 0xFFFD#32 .word) ∧
    step State.reset = .fault (.unsupportedInstruction 0#32) := ⟨rfl, rfl, rfl, rfl⟩

/-- One fault for each disjunct: byte, halfword and word loads, and the three stores. -/
theorem witness_FaultsAreThoseOfTheTable :
    exec (.lb 3 1 0#32) (v9 0x10000#32) = .fault (.outOfBoundsMemoryAccess 0x10000#32 .byte) ∧
    exec (.lhu 3 1 0#32) (v9 0xFFFF#32) = .fault (.outOfBoundsMemoryAccess 0xFFFF#32 .half) ∧
    exec (.lw 3 1 0#32) (v9 0xFFFD#32) = .fault (.outOfBoundsMemoryAccess 0xFFFD#32 .word) ∧
    exec (.sb 1 2 0#32) (v9 0x10000#32) = .fault (.outOfBoundsMemoryAccess 0x10000#32 .byte) ∧
    exec (.sh 1 2 0#32) (v9 0xFFFF#32) = .fault (.outOfBoundsMemoryAccess 0xFFFF#32 .half) ∧
    exec (.sw 1 2 0#32) (v9 0xFFFD#32) = .fault (.outOfBoundsMemoryAccess 0xFFFD#32 .word) := ⟨rfl, rfl, rfl, rfl, rfl, rfl⟩

/-- A store that completes by a word, and a run-step that completes. -/
theorem witness_StepKeepsTheInvariant :
    ((v9 0xFFFC#32).Inv ∧ ∃ t, stepWord 0x0020A023#32 (v9 0xFFFC#32) = .next t) ∧
    atEnd.Inv ∧ ∃ t, step atEnd = .next t :=
  ⟨⟨by decide, _, rfl⟩, by decide, _, rfl⟩

/-- The two ends of MEM_SIZE, a cell named twice, and a cell outside the memory. -/
theorem witness_ResetLoadsTheParameters :
    ({ Config.default with memSize := 1, memInit := [(0, 1#8), (0, 2#8), (1, 3#8)] } : Config).wf ∧
    ({ Config.default with memSize := 2 ^ 32 } : Config).wf := by decide

theorem witness_PcBitZeroNeverChanges :
    (∃ t, stepWord 0xFE208CE3#32 (two 5#32 5#32) = .next t) ∧ ∃ t, step atEnd = .next t := ⟨⟨_, rfl⟩, ⟨_, rfl⟩⟩

theorem witness_OnlyStoresChangeMemory :
    ((0x002081B3#32).extractLsb' 0 7 ≠ 0x23#7 ∧ ∃ t, stepWord 0x002081B3#32 (v9 0#32) = .next t) ∧
    ((0x0020A023#32).extractLsb' 0 7 ∈ [0x23#7, 0x63#7, 0x73#7] ∧ ∃ t, stepWord 0x0020A023#32 (v9 0#32) = .next t) ∧
    ((0xFE208CE3#32).extractLsb' 0 7 ∈ [0x23#7, 0x63#7, 0x73#7] ∧ ∃ t, stepWord 0xFE208CE3#32 (v9 0#32) = .next t) ∧
    ((0x00000073#32).extractLsb' 0 7 ∈ [0x23#7, 0x63#7, 0x73#7] ∧ ∃ t, stepWord 0x00000073#32 (v9 0#32) = .next t) :=
  ⟨⟨by decide, _, rfl⟩, ⟨by decide, _, rfl⟩, ⟨by decide, _, rfl⟩, ⟨by decide, _, rfl⟩⟩

theorem witness_OnlyTheNamedRegisterChanges :
    (∃ t, stepWord 0x002081B3#32 (v9 0#32) = .next t) ∧ (4#5 : RegIdx) ≠ (0x002081B3#32).extractLsb' 7 5 :=
  ⟨⟨_, rfl⟩, by decide⟩

theorem witness_EcallOutputIsOneForEcallAlone :
    (∃ t, stepWord 0x00000073#32 (v9 0#32) = .next t ∧ t.ecall = true) ∧
    ∃ t, stepWord 0x00500093#32 (v9 0#32) = .next t ∧ t.ecall = false := ⟨⟨_, rfl, rfl⟩, ⟨_, rfl, rfl⟩⟩

/-- ADDI x1, x0, 5 and ECALL, at address 0. -/
def addiEcall : State := State.reset.pokeWords 0 [0x00500093#32, 0x00000073#32]

/-- Not over, then a fault; not over, then a step without event, then the event; the ends themselves. -/
theorem witness_RunEndsAtTheFirstFaultOrEcall :
    (runProgram 0 State.reset = .outOfSteps State.reset ∧ step State.reset = .fault (.unsupportedInstruction 0#32)) ∧
    (∃ t, runProgram 0 addiEcall = .outOfSteps addiEcall ∧ step addiEcall = .next t ∧ t.ecall = false) ∧
    (∃ u t, runProgram 1 addiEcall = .outOfSteps u ∧ step u = .next t ∧ t.ecall = true) ∧
    runProgram 1 State.reset = .atFault (.unsupportedInstruction 0#32) State.reset ∧
    ∃ t, runProgram 2 addiEcall = .atEcall t :=
  ⟨⟨rfl, rfl⟩, ⟨_, rfl, rfl, rfl⟩, ⟨_, _, rfl, rfl, rfl⟩, rfl, _, rfl⟩

/-- The last byte of memory, alone and as the first byte of a word placed there; bytes on both sides of a placed program. -/
theorem witness_OutOfBandWritesKeepTheInvariant :
    (v9 0#32).Inv ∧ 0xFFFF < (v9 0#32).mem.size ∧ (v9 0#32).mem.size ≤ 0x10000 ∧
    ([0x00500093#32, 0x00000073#32] : List Word)[1]? = some 0x00000073#32 ∧
    0xFFFB + 4 * 1 + 0 < (v9 0#32).mem.size ∧
    (0xFFFA < 0xFFFB ∧ 0xFFF0 + 4 * ([0x00500093#32, 0x00000073#32] : List Word).length ≤ 0xFFF8) := by decide

end Sys2Proof.Tests
end

section
/-! PROOFS. The register file and the step (10_state.md R21, R22, R32). -/

namespace Sys2Proof.Machine

/-! ### The stored cell of register 0 is read by nothing (R21) -/

/-- The state with another value in the stored cell of register 0. -/
def State.withCellZero (s : State) (v : Word) : State := { s with regs := s.regs.set 0 v }

/-- The same end of a step, its next state changed by `f`. -/
def mapNext (f : State → State) : Result → Result
  | .next t => .next (f t)
  | .fault e => .fault e
  | .refused r => .refused r

section
variable (s : State) (v : Word)

@[simp] theorem withCellZero_pc : (s.withCellZero v).pc = s.pc := rfl
@[simp] theorem withCellZero_mem : (s.withCellZero v).mem = s.mem := rfl
@[simp] theorem withCellZero_ecall : (s.withCellZero v).ecall = s.ecall := rfl

@[simp] theorem withCellZero_readReg (r : RegIdx) : (s.withCellZero v).readReg r = s.readReg r := by
  by_cases hr : r = 0#5
  · simp [hr]
  · have hne : 0 ≠ r.toNat := fun e => hr (BitVec.eq_of_toNat_eq e.symm)
    simp [State.readReg, State.withCellZero, hr, Vector.getElem_set_ne _ _ hne]

/-- A register write does not touch the cell of register 0, so the two changes commute. -/
theorem withCellZero_writeReg (rd : RegIdx) (x : Word) :
    (s.withCellZero v).writeReg rd x = (s.writeReg rd x).withCellZero v := by
  by_cases hrd : rd = 0#5
  · simp [hrd]
  · have hne : 0 ≠ rd.toNat := fun e => hrd (BitVec.eq_of_toNat_eq e.symm)
    simp [State.writeReg, State.withCellZero, hrd, Vector.set_comm _ _ hne]

theorem writeback_withCellZero (rd : RegIdx) (x : Word) :
    writeback rd x (s.withCellZero v) = mapNext (·.withCellZero v) (writeback rd x s) := by
  rw [writeback, withCellZero_writeReg]; rfl

theorem aluReg_withCellZero (op : AluOp) (rd rs1 rs2 : RegIdx) :
    aluReg op rd rs1 rs2 (s.withCellZero v) = mapNext (·.withCellZero v) (aluReg op rd rs1 rs2 s) := by
  rw [aluReg, withCellZero_readReg, withCellZero_readReg, writeback_withCellZero]; rfl

theorem aluImm_withCellZero (op : AluOp) (rd rs1 : RegIdx) (b : Word) :
    aluImm op rd rs1 b (s.withCellZero v) = mapNext (·.withCellZero v) (aluImm op rd rs1 b s) := by
  rw [aluImm, withCellZero_readReg, writeback_withCellZero]; rfl

@[simp] theorem effectiveAddress_withCellZero (rs1 : RegIdx) (imm : Word) :
    effectiveAddress (s.withCellZero v) rs1 imm = effectiveAddress s rs1 imm := by simp [effectiveAddress]

theorem load_withCellZero (width : Width) (ext : Widening) (rd rs1 : RegIdx) (imm : Word) :
    load width ext rd rs1 imm (s.withCellZero v) = mapNext (·.withCellZero v) (load width ext rd rs1 imm s) := by
  simp only [load, effectiveAddress_withCellZero, withCellZero_mem]
  cases memRead s.mem (effectiveAddress s rs1 imm) width with
  | ok x => exact writeback_withCellZero s v rd _
  | error f => rfl

theorem store_withCellZero (width : Width) (rs1 rs2 : RegIdx) (imm : Word) :
    store width rs1 rs2 imm (s.withCellZero v) = mapNext (·.withCellZero v) (store width rs1 rs2 imm s) := by
  simp only [store, effectiveAddress_withCellZero, withCellZero_mem, withCellZero_readReg]
  cases memWrite s.mem (effectiveAddress s rs1 imm) width (s.readReg rs2) with
  | ok m => rfl
  | error f => rfl

theorem branch_withCellZero (c : Cond) (rs1 rs2 : RegIdx) (offset : Word) :
    branch c rs1 rs2 offset (s.withCellZero v) = mapNext (·.withCellZero v) (branch c rs1 rs2 offset s) := by
  rw [branch, withCellZero_readReg, withCellZero_readReg]; rfl

theorem execJal_withCellZero (rd : RegIdx) (offset : Word) :
    execJal rd offset (s.withCellZero v) = mapNext (·.withCellZero v) (execJal rd offset s) := by
  rw [execJal, withCellZero_writeReg]; rfl

/-- No instruction reads or writes the cell of register 0: another value in it changes nothing else. -/
theorem exec_withCellZero (i : Instr) : exec i (s.withCellZero v) = mapNext (·.withCellZero v) (exec i s) := by
  cases i with
  | add | sub | sll | slt | sltu | xor | srl | sra | or | and => exact aluReg_withCellZero ..
  | addi | slti | sltiu | xori | ori | andi | slli | srli | srai => exact aluImm_withCellZero ..
  | lb | lh | lw | lbu | lhu => exact load_withCellZero ..
  | sb | sh | sw => exact store_withCellZero ..
  | beq | bne | blt | bge | bltu | bgeu => exact branch_withCellZero ..
  | lui => exact writeback_withCellZero ..
  | jal => exact execJal_withCellZero ..
  | ecall => rfl

end

/-- Settles O39: register 0 reads zero by R21, and another value in its cell commutes with every instruction. -/
theorem registerZeroReadsZero : Obligations.RegisterZeroReadsZero := by
  refine ⟨readReg_zero, fun s v r => by rw [writeReg_zero], fun i s v => ⟨fun t ht => ?_, fun f hf => ?_⟩⟩
  · have hstep := exec_withCellZero s v i
    rw [ht] at hstep
    exact ⟨t.withCellZero v, hstep, withCellZero_readReg t v, rfl, rfl, rfl⟩
  · have hstep := exec_withCellZero s v i
    rwa [hf] at hstep

/-! ### A write to register 0 is discarded (R22) -/

theorem writeback_zero (v : Word) (s : State) :
    writeback 0#5 v s = .next { s with pc := s.pc + 4#32, ecall := false } := by rw [writeback, writeReg_zero]; rfl

theorem execJal_zero (offset : Word) (s : State) :
    execJal 0#5 offset s = .next { s with pc := s.pc + offset, ecall := false } := by rw [execJal, writeReg_zero]; rfl

/-- A load to register 0 makes the same bounds check as any load, and then advances the pc alone. -/
theorem load_zero (width : Width) (ext : Widening) (rs1 : RegIdx) (imm : Word) (s : State) :
    ((s.readReg rs1 + imm).toNat + width.bytes ≤ s.mem.size →
      load width ext 0#5 rs1 imm s = .next { s with pc := s.pc + 4#32, ecall := false }) ∧
    (s.mem.size < (s.readReg rs1 + imm).toNat + width.bytes →
      load width ext 0#5 rs1 imm s = .fault (.outOfBoundsMemoryAccess (s.readReg rs1 + imm) width)) := by
  rcases load_cases width ext 0#5 rs1 imm s with ⟨hin, he⟩ | ⟨hout, he⟩
  · exact ⟨fun _ => he.trans (writeback_zero _ s), fun h => absurd hin (Nat.not_le.2 h)⟩
  · exact ⟨fun h => absurd h hout, fun _ => he⟩

/-- Settles O40: every ALU instruction and LUI end in `writeback`, the loads in `load`, JAL in its own link write. -/
theorem writeToRegisterZeroIsDiscarded : Obligations.WriteToRegisterZeroIsDiscarded := by
  intro rs1 rs2 shamt imm s
  refine ⟨writeReg_zero s, ?aluReg, ?aluImm, execJal_zero imm s, ?load⟩
  case aluReg | aluImm =>
    intro i hi
    simp only [List.mem_cons, List.not_mem_nil, or_false] at hi
    rcases hi with rfl | rfl | rfl | rfl | rfl | rfl | rfl | rfl | rfl | rfl <;> exact writeback_zero _ s
  case load =>
    intro p hp
    simp only [List.mem_cons, List.not_mem_nil, or_false] at hp
    rcases hp with rfl | rfl | rfl | rfl | rfl <;> exact load_zero _ _ rs1 imm s

/-! ### The step is total (R32) -/

theorem stepWord_of_ok {w : Word} {i : Instr} (h : decodeInstr w = .ok i) (s : State) : stepWord w s = exec i s := by
  rw [stepWord, h]

theorem stepWord_of_error {w : Word} {r : Reject} (h : decodeInstr w = .error r) (s : State) :
    stepWord w s = .fault (.unsupportedInstruction w) := by rw [stepWord, h]; rfl

/-- The step of one word ends in a next state or a fault, never in a refusal. -/
theorem stepWord_next_or_fault (w : Word) (s : State) :
    (∃ t, stepWord w s = .next t) ∨ ∃ f, stepWord w s = .fault f := by
  rcases stepWord_cases w s with ⟨i, -, he⟩ | ⟨r, -, he⟩
  · rw [he]; exact exec_next_or_fault i s
  · exact .inr ⟨_, he⟩

/-- Settles O45, by what the decoder answers and what the identified instruction can do. -/
theorem stepIsTotal : Obligations.StepIsTotal := by
  intro w s
  refine ⟨fun r h => stepWord_of_error h s, fun i h => stepWord_of_ok h s, ?decoded, ?ended⟩
  case decoded =>
    rcases stepWord_cases w s with ⟨i, h, -⟩ | ⟨r, h, -⟩
    · exact .inl ⟨i, h⟩
    · exact .inr ⟨r, h⟩
  case ended =>
    rcases stepWord_next_or_fault w s with h | ⟨f, h⟩
    · exact .inl h
    · exact .inr ⟨f, h, by simp only [h, afterStep, and_self]⟩

end Sys2Proof.Machine
end

section
/-! PROOFS. The memory primitives (20_memory.md R53 to R56). -/

namespace Sys2Proof.Machine

/-! ### What MemRead returns (R54) -/

theorem Width.bytes_pos (width : Width) : 1 ≤ width.bytes := by cases width <;> decide

theorem Width.bytes_le_four (width : Width) : width.bytes ≤ 4 := by cases width <;> decide

/-- The recursion of `leValue`, lowest byte first, unrolled to the sum the spec writes. -/
theorem leValue_eq_sum (m : Memory) (a n : Nat) :
    m.leValue a n = ∑ i ∈ Finset.range n, (m.byte (a + i)).toNat * 2 ^ (8 * i) := by
  induction n generalizing a with
  | zero => rfl
  | succ n ih =>
    have hshift : ∀ i, 256 * ((m.byte (a + 1 + i)).toNat * 2 ^ (8 * i)) =
        (m.byte (a + (i + 1))).toNat * 2 ^ (8 * (i + 1)) := fun i => by
      rw [Nat.add_assoc, Nat.add_comm 1 i, Nat.mul_add, Nat.pow_add]; ring
    rw [Memory.leValue, ih, Finset.sum_range_succ', Finset.mul_sum, Finset.sum_congr rfl fun i _ => hshift i]
    simp [Nat.add_comm]

/-- At most four bytes are read, so the value MemRead returns as a word is not cut. -/
theorem leValue_bytes_lt (m : Memory) (a : Nat) (width : Width) : m.leValue a width.bytes < 2 ^ 32 :=
  (leValue_lt m a width.bytes).trans_le (Nat.pow_le_pow_right (by decide) width.bytes_le_four)

/-- Settles O28: the recursion `leValue` is the spec's sum, and the word MemRead returns holds all of it. -/
theorem memReadIsTheLittleEndianSum : Obligations.MemReadIsTheLittleEndianSum := by
  refine fun m addr width => ⟨memRead_of_gt, fun hin => ⟨_, memRead_of_le hin, ?_⟩⟩
  rw [BitVec.toNat_ofNat, Nat.mod_eq_of_lt (leValue_bytes_lt ..), leValue_eq_sum]

/-! ### What MemWrite writes (R55) -/

theorem byteOf_eq_extractLsb' (v : Word) (i : Nat) : byteOf v i = v.extractLsb' (8 * i) 8 := rfl

/-- Settles O29, by the laws of `storeBytes`: size, canonical form, its own cells, the cells outside. -/
theorem memWriteWritesExactlyItsCells : Obligations.MemWriteWritesExactlyItsCells := by
  refine fun m addr width v hw => ⟨memWrite_of_gt, fun hin =>
    ⟨_, memWrite_of_le hin, storeBytes_size .., storeBytes_wf _ _ _ _ hw hin, fun i hi => ?_,
      fun b hb => byte_storeBytes_outside _ _ _ _ b hb⟩⟩
  rw [byte_storeBytes_inside _ _ _ _ i hw hin hi, byteOf_eq_extractLsb']

/-! ### The edges of the bounds check (R56) -/

theorem memRead_ok_iff (m : Memory) (addr : Word) (width : Width) :
    (∃ x, memRead m addr width = .ok x) ↔ addr.toNat + width.bytes ≤ m.size := by
  rcases memRead_cases m addr width with ⟨hin, he⟩ | ⟨hout, he⟩
  · simp [he, hin]
  · simp [he, hout]

theorem memWrite_ok_iff (m : Memory) (addr : Word) (width : Width) (v : Word) :
    (∃ m', memWrite m addr width v = .ok m') ↔ addr.toNat + width.bytes ≤ m.size := by
  rcases memWrite_cases m addr width v with ⟨hin, he⟩ | ⟨hout, he⟩
  · simp [he, hin]
  · simp [he, hout]

theorem load_of_not_admitted (width : Width) (ext : Widening) (rd rs1 : RegIdx) (imm : Word) (s : State)
    (h : ¬Admitted s (effectiveAddress s rs1 imm) width) :
    load width ext rd rs1 imm s = .fault (.outOfBoundsMemoryAccess (effectiveAddress s rs1 imm) width) := by
  rcases load_cases width ext rd rs1 imm s with ⟨hin, -⟩ | ⟨-, he⟩
  · exact absurd hin h
  · exact he

theorem store_of_not_admitted (width : Width) (rs1 rs2 : RegIdx) (imm : Word) (s : State)
    (h : ¬Admitted s (effectiveAddress s rs1 imm) width) :
    store width rs1 rs2 imm s = .fault (.outOfBoundsMemoryAccess (effectiveAddress s rs1 imm) width) := by
  rcases store_cases width rs1 rs2 imm s with ⟨hin, -⟩ | ⟨-, he⟩
  · exact absurd hin h
  · exact he

/-- At MEM_SIZE no width is admitted. -/
theorem not_admitted_at_size (s : State) (ea : Word) (h : ea.toNat = s.mem.size) (width : Width) :
    ¬Admitted s ea width := by
  have := width.bytes_pos
  rw [Admitted]; omega

/-- A fault changes no register, not the pc, not the memory (R244). -/
theorem afterStep_fault_frame (s : State) {r : Result} {f : Fault} (h : r = .fault f) :
    SameRegs s (afterStep s r) ∧ (afterStep s r).pc = s.pc ∧ (afterStep s r).mem = s.mem := by
  subst h; exact ⟨fun _ => rfl, rfl, rfl⟩

/-- Settles O30: every clause is the check `addr.toNat + width.bytes ≤ m.size` on naturals, taken to its edges. -/
theorem boundsCheckDoesNotWrap : Obligations.BoundsCheckDoesNotWrap := by
  intro m addr width v
  have hpos := width.bytes_pos
  have faults (h : m.size < addr.toNat + width.bytes) :
      memRead m addr width = .error (.outOfBoundsMemoryAccess addr width) ∧
      memWrite m addr width v = .error (.outOfBoundsMemoryAccess addr width) := ⟨memRead_of_gt h, memWrite_of_gt h⟩
  refine ⟨memRead_ok_iff .., memWrite_ok_iff .., fun hsize hwrap => faults (hsize.2.trans_lt hwrap),
    fun _ hout => faults hout, fun hfit hlast => ?last, fun hend => faults (by omega), ?instructions⟩
  case last =>
    have hin : addr.toNat + width.bytes ≤ m.size := by omega
    exact ⟨(memRead_ok_iff ..).2 hin, (memWrite_ok_iff ..).2 hin⟩
  case instructions =>
    rintro s rd rs1 rs2 imm rfl rfl hend p hp
    have hout := not_admitted_at_size s (effectiveAddress s rs1 imm) hend
    have hfault : exec p.1 s = .fault (.outOfBoundsMemoryAccess (effectiveAddress s rs1 imm) p.2) := by
      simp only [List.mem_cons, List.not_mem_nil, or_false] at hp
      rcases hp with rfl | rfl | rfl | rfl | rfl | rfl | rfl | rfl
      iterate 5 exact load_of_not_admitted _ _ _ _ _ _ (hout _)
      iterate 3 exact store_of_not_admitted _ _ _ _ _ (hout _)
    exact ⟨hfault, afterStep_fault_frame s hfault⟩

/-! ### A word in memory and the narrow reads inside it (R53) -/

section
variable (m : Memory) (A v : Word) (hw : m.wf) (hs : m.sizeOk) (hin : A.toNat + 4 ≤ m.size)
include hw hin

theorem byte_storedWord (k : Nat) (hk : k < 4) :
    (m.storeBytes A.toNat v 4).byte (A.toNat + k) = v.extractLsb' (8 * k) 8 :=
  byte_storeBytes_inside m A.toNat v 4 k hw hin hk

include hs

/-- A read of any width that stays inside a stored word, `k` bytes into it, returns the word's bits from `8 * k` on. MEM_SIZE
is at most 2^32, so the address of the read does not wrap. -/
theorem memRead_storedWord (width : Width) (k : Nat) (hk : k + width.bytes ≤ 4) :
    memRead (m.storeBytes A.toNat v 4) (A + BitVec.ofNat 32 k) width =
      .ok ((v.extractLsb' (8 * k) (8 * width.bytes)).setWidth 32) := by
  have hpos := width.bytes_pos
  have hsize := hs.2
  have haddr : (A + BitVec.ofNat 32 k).toNat = A.toNat + k := by
    rw [BitVec.toNat_add, BitVec.toNat_ofNat]; omega
  have hvalue : (m.storeBytes A.toNat v 4).leValue (A.toNat + k) width.bytes = v.toNat / 256 ^ k % 256 ^ width.bytes :=
    leValue_of_bytes _ v _ k _ fun i hi => by
      rw [Nat.add_assoc]; exact byte_storedWord m A v hw hin (k + i) (by omega)
  rw [memRead_of_le (by rw [haddr, storeBytes_size]; omega), haddr, hvalue]
  congr 1
  apply BitVec.eq_of_toNat_eq
  simp [Nat.shiftRight_eq_div_pow, Nat.pow_mul]

/-- The read at the word's own address. -/
theorem memRead_storedWord_start (width : Width) :
    memRead (m.storeBytes A.toNat v 4) A width = .ok ((v.extractLsb' 0 (8 * width.bytes)).setWidth 32) := by
  simpa using memRead_storedWord m A v hw hs hin width 0 (by simpa using width.bytes_le_four)

end

/-- Settles O31: the bytes and the reads of a stored word, then the same facts at 0xDEADBEEF. -/
theorem wordsLieLittleEndian : Obligations.WordsLieLittleEndian := by
  intro m A hw hs hin
  have hbyte := fun v => byte_storedWord m A v hw hin
  have hread := fun v => memRead_storedWord m A v hw hs hin
  have hstart := fun v => memRead_storedWord_start m A v hw hs hin
  refine ⟨fun v => ⟨_, memWrite_of_le hin, fun k hk => ⟨hbyte v k hk, hread v .byte k hk⟩,
      fun k hk => hread v .half k (Nat.add_le_add_right (Nat.le_of_lt_succ hk) 2), ?whole⟩,
    _, memWrite_of_le hin, hbyte _ 0 (by decide), hbyte _ 1 (by decide), hbyte _ 2 (by decide), hbyte _ 3 (by decide),
    hstart _ .byte, hread _ .half 2 (by decide), hread _ .half 1 (by decide)⟩
  case whole =>
    simpa [Width.bytes] using hstart v .word

end Sys2Proof.Machine
end

section
/-! PROOFS. The immediates bit by bit, and their ranges (30_encoding.md R86 to R90). -/

namespace Sys2Proof.Encoding

/-! ### Where each bit of an immediate comes from -/

/-- Sign extension copies the value's top bit into every bit above it (R10). -/
theorem getLsbD_sext {n : Nat} (v : BitVec n) {i : Nat} (hi : i < 32) :
    (sext v).getLsbD i = v.getLsbD (if i < n then i else n - 1) := by
  rw [sext, BitVec.getLsbD_signExtend, decide_eq_true hi, Bool.true_and]
  split_ifs
  · rfl
  · exact BitVec.msb_eq_getLsbD_last v

section
/-! Bit `i` lies in one field of the concatenation; which one is settled by comparing `i` with the fields' ends. -/

variable (w : Word) {i : Nat} (hi : i < 32)
include hi

/-- R86: w[31:20], then copies of w[31]. -/
theorem getLsbD_immI : (immI w).getLsbD i = w.getLsbD (if i < 12 then 20 + i else 31) := by
  rw [immI, getLsbD_sext _ hi, BitVec.getLsbD_extractLsb']
  split_ifs with h
  · rw [decide_eq_true h, Bool.true_and]
  · rfl

/-- R87: w[11:7], w[31:25], then copies of w[31]. -/
theorem getLsbD_immS :
    (immS w).getLsbD i = w.getLsbD (if i < 5 then 7 + i else if i < 12 then 25 + (i - 5) else 31) := by
  rw [immS, getLsbD_sext _ hi]
  simp only [BitVec.getLsbD_append, BitVec.getLsbD_extractLsb']
  grind

/-- R88: a zero, w[11:8], w[30:25], w[7], then w[31] and its copies. -/
theorem getLsbD_immSB :
    (immSB w).getLsbD i = if i = 0 then false else w.getLsbD
      (if i < 5 then 8 + (i - 1) else if i < 11 then 25 + (i - 5) else if i = 11 then 7 else 31) := by
  rw [immSB, getLsbD_sext _ hi]
  simp only [BitVec.getLsbD_append, BitVec.getLsbD_extractLsb']
  grind

/-- R89: twelve zeros, then w[31:12] in place. -/
theorem getLsbD_immU : (immU w).getLsbD i = if i < 12 then false else w.getLsbD i := by
  rw [immU, BitVec.getLsbD_append, BitVec.getLsbD_extractLsb']
  split_ifs
  · exact BitVec.getLsbD_zero
  · rw [decide_eq_true (by omega), Bool.true_and, Nat.add_sub_cancel' (by omega)]

/-- R90: a zero, w[30:21], w[20], w[19:12] in place, then w[31] and its copies. -/
theorem getLsbD_immUJ :
    (immUJ w).getLsbD i = if i = 0 then false else w.getLsbD
      (if i < 11 then 21 + (i - 1) else if i = 11 then 20 else if i < 20 then i else 31) := by
  rw [immUJ, getLsbD_sext _ hi]
  simp only [BitVec.getLsbD_append, BitVec.getLsbD_extractLsb']
  grind

end

/-! ### The ranges, as integers -/

theorem range_of_fits12 {v : Word} (h : fits12 v = true) : -2048 ≤ v.toInt ∧ v.toInt ≤ 2047 := by
  simpa [fits12] using h

/-- An even word is even as a signed integer too: the two readings differ by 0 or 2^32. -/
theorem toInt_emod_two {v : Word} (h : v.toNat % 2 = 0) : v.toInt % 2 = 0 := by
  rw [BitVec.toInt_eq_toNat_cond]
  split <;> omega

theorem range_of_fitsBranch {v : Word} (h : fitsBranch v = true) :
    -4096 ≤ v.toInt ∧ v.toInt ≤ 4094 ∧ v.toInt % 2 = 0 := by
  obtain ⟨⟨hlo, hhi⟩, heven⟩ : (-4096 ≤ v.toInt ∧ v.toInt ≤ 4094) ∧ v.toNat % 2 = 0 := by simpa [fitsBranch] using h
  exact ⟨hlo, hhi, toInt_emod_two heven⟩

theorem range_of_fitsJump {v : Word} (h : fitsJump v = true) :
    -1048576 ≤ v.toInt ∧ v.toInt ≤ 1048574 ∧ v.toInt % 2 = 0 := by
  obtain ⟨⟨hlo, hhi⟩, heven⟩ : (-1048576 ≤ v.toInt ∧ v.toInt ≤ 1048574) ∧ v.toNat % 2 = 0 := by
    simpa [fitsJump] using h
  exact ⟨hlo, hhi, toInt_emod_two heven⟩

/-! ### imm_U is the word with its low twelve bits cleared (R89) -/

theorem immU_eq_and (w : Word) : immU w = w &&& 0xFFFFF000#32 := by
  have hmask : 0xFFFFF000#32 = immU (BitVec.allOnes 32) := by decide
  refine BitVec.eq_of_getLsbD_eq fun i hi => ?_
  rw [hmask, BitVec.getLsbD_and, getLsbD_immU _ hi, getLsbD_immU _ hi, BitVec.getLsbD_allOnes, decide_eq_true hi]
  split_ifs
  · rw [Bool.and_false]
  · rw [Bool.and_true]

theorem immU_toNat_mod (w : Word) : (immU w).toNat % 4096 = 0 := by
  simpa [fitsUpper] using fits_immU w

theorem immU_of_mod_zero {v : Word} (h : v.toNat % 4096 = 0) : immU v = v :=
  glueU v (by rw [fitsUpper, decide_eq_true h])

/-! ### The obligations -/

/-- Settles O2: each bit range is one branch of the bit's source, the range is what every decoded immediate fits, and the
points of R86 are sign extensions of known 12-bit values. -/
theorem immediatesIAndSAreReassembled : Obligations.ImmediatesIAndSAreReassembled := by
  intro w
  obtain ⟨hloI, hhiI⟩ := range_of_fits12 (fits_immI w)
  refine ⟨⟨fun i hi => ?lowI, fun i h12 hi => ?signI, hloI, hhiI, ?_, ?_, ?_, ?_⟩,
    fun i hi => ?lowS, fun i h5 hi => ?highS, fun i h12 hi => ?signS, range_of_fits12 (fits_immS w)⟩
  case lowI | signI => simp (disch := omega) only [getLsbD_immI, if_pos, if_neg]
  case lowS | highS | signS => simp (disch := omega) only [getLsbD_immS, if_pos, if_neg]
  all_goals
    intro h
    rw [immI, h]
    decide

/-- Settles O3: bit by bit as for imm_I and imm_S, with the parity from the range; imm_U by its mask. -/
theorem immediatesSBAndUAndUJAreReassembled : Obligations.ImmediatesSBAndUAndUJAreReassembled := by
  intro w
  refine ⟨⟨getLsbD_immSB w (i := 0) (by decide), fun i h1 hi => ?sb1, fun i h5 hi => ?sb5,
      getLsbD_immSB w (i := 11) (by decide), fun i h12 hi => ?signSB, range_of_fitsBranch (fits_immSB w)⟩,
    ⟨fun i hi => ?lowU, fun i h12 hi => ?highU, immU_eq_and w, immU_toNat_mod w, fun v => immU_of_mod_zero⟩,
    getLsbD_immUJ w (i := 0) (by decide), fun i h1 hi => ?uj1, getLsbD_immUJ w (i := 11) (by decide),
      fun i h12 hi => ?uj12, fun i h20 hi => ?signUJ, range_of_fitsJump (fits_immUJ w)⟩
  case sb1 | sb5 | signSB => simp (disch := omega) only [getLsbD_immSB, if_pos, if_neg]
  case lowU | highU => simp (disch := omega) only [getLsbD_immU, if_pos, if_neg]
  case uj1 | uj12 | signUJ => simp (disch := omega) only [getLsbD_immUJ, if_pos, if_neg]

end Sys2Proof.Encoding
end

section
/-! PROOFS. The register-register ALU instructions (41_alu_reg.md R152). -/

namespace Sys2Proof.Machine

/-- The register-register instruction of each ALU operation (R141 to R150). -/
def AluOp.regInstr (op : AluOp) (rd rs1 rs2 : RegIdx) : Instr :=
  match op with
  | .add  => .add rd rs1 rs2
  | .sub  => .sub rd rs1 rs2
  | .sll  => .sll rd rs1 rs2
  | .slt  => .slt rd rs1 rs2
  | .sltu => .sltu rd rs1 rs2
  | .xor  => .xor rd rs1 rs2
  | .srl  => .srl rd rs1 rs2
  | .sra  => .sra rd rs1 rs2
  | .or   => .or rd rs1 rs2
  | .and  => .and rd rs1 rs2

/-- The ten mnemonics of opcode 0x33, each with its ALU operation. -/
def aluRegMnemonics : List (String × AluOp) :=
  [("ADD", .add), ("SUB", .sub), ("SLL", .sll), ("SLT", .slt), ("SLTU", .sltu), ("XOR", .xor), ("SRL", .srl), ("SRA", .sra),
    ("OR", .or), ("AND", .and)]

section
variable (op : AluOp) (rd rs1 rs2 : RegIdx) (s : State)

theorem exec_regInstr : exec (op.regInstr rd rs1 rs2) s = aluReg op rd rs1 rs2 s := by cases op <;> rfl

theorem mnemonic_regInstr_mem : ((op.regInstr rd rs1 rs2).mnemonic, op) ∈ aluRegMnemonics := by
  cases op <;> simp [AluOp.regInstr, Instr.mnemonic, aluRegMnemonics]

theorem aluReg_completes : CompletesWriting (aluReg op rd rs1 rs2 s) s rd (alu op (s.readReg rs1) (s.readReg rs2)) (s.pc + 4#32) :=
  writeback_completes ..

end

/-- Whatever word of opcode 0x33 R94 accepts, it is the instruction of one of the ten operations, on the word's own registers. -/
theorem exists_regInstr_of_identifyR_ok {f7 : BitVec 7} {f3 : BitVec 3} {rd rs1 rs2 : RegIdx} {i : Instr}
    (h : identifyR f7 f3 rd rs1 rs2 = .ok i) : ∃ op : AluOp, i = op.regInstr rd rs1 rs2 := by
  have is_op : ∀ op : AluOp, identifyR f7 f3 rd rs1 rs2 = .ok (op.regInstr rd rs1 rs2) →
      ∃ op : AluOp, i = op.regInstr rd rs1 rs2 := fun op he => ⟨op, Except.ok.inj (h.symm.trans he)⟩
  rcases identifyR_cases f7 f3 rd rs1 rs2 with ⟨-, hbase⟩ | ⟨-, -, he⟩ | ⟨-, -, he⟩ | ⟨-, -, he⟩
  · rcases hbase with ⟨-, he⟩ | ⟨-, he⟩ | ⟨-, he⟩ | ⟨-, he⟩ | ⟨-, he⟩ | ⟨-, he⟩ | ⟨-, he⟩ | ⟨-, he⟩
    · exact is_op .add he
    · exact is_op .sll he
    · exact is_op .slt he
    · exact is_op .sltu he
    · exact is_op .xor he
    · exact is_op .srl he
    · exact is_op .or he
    · exact is_op .and he
  · exact is_op .sub he
  · exact is_op .sra he
  · cases h.symm.trans he

theorem decodeInstr_of_opcode_reg {w : Word} (h : opcodeOf w = 0x33#7) :
    decodeInstr w = identifyR (funct7Of w) (funct3Of w) (rdOf w) (rs1Of w) (rs2Of w) := by
  rw [decodeInstr_eq, if_pos h]

/-- Settles O11: a decoded word of opcode 0x33 is the instruction of one ALU operation on its own register fields, and each of
those runs `aluReg`. -/
theorem registerRegisterCommonBehaviour : Obligations.RegisterRegisterCommonBehaviour := by
  intro w i hop hi
  obtain ⟨op, rfl⟩ := exists_regInstr_of_identifyR_ok ((decodeInstr_of_opcode_reg hop).symm.trans hi)
  refine ⟨op, mnemonic_regInstr_mem op _ _ _, fun s => ?_⟩
  rw [exec_regInstr]
  exact aluReg_completes op _ _ _ s

end Sys2Proof.Machine
end

section
/-! PROOFS. The read path of the five loads (43_load.md R180). -/

namespace Sys2Proof.Machine

section
variable (width : Width) (ext : Widening) (rd rs1 : RegIdx) (imm : Word) (s : State)

/-- An admitted load writes the widened value of its own MemRead. -/
theorem load_completes (h : Admitted s (effectiveAddress s rs1 imm) width) :
    ∃ v, memRead s.mem (effectiveAddress s rs1 imm) width = .ok v ∧
      CompletesWriting (load width ext rd rs1 imm s) s rd (widen ext width v) (s.pc + 4#32) := by
  obtain ⟨v, hv⟩ := (memRead_ok_iff ..).2 h
  refine ⟨v, hv, ?_⟩
  rw [load, hv]
  exact writeback_completes rd _ s

/-- A load faults only where its access leaves the memory, and with that access. -/
theorem load_fault_inv {f : Fault} (h : load width ext rd rs1 imm s = .fault f) :
    ¬Admitted s (effectiveAddress s rs1 imm) width ∧
      f = .outOfBoundsMemoryAccess (effectiveAddress s rs1 imm) width := by
  rcases load_cases width ext rd rs1 imm s with ⟨-, he⟩ | ⟨hout, he⟩
  · cases h.symm.trans he
  · exact ⟨hout, Host.Outcome.fault.inj (h.symm.trans he)⟩

/-- The read path of R180, for every width and widening. -/
theorem load_readPath :
    (Admitted s (effectiveAddress s rs1 imm) width →
      ∃ v, memRead s.mem (effectiveAddress s rs1 imm) width = .ok v ∧
        CompletesWriting (load width ext rd rs1 imm s) s rd (widen ext width v) (s.pc + 4#32)) ∧
    (s.mem.size < (effectiveAddress s rs1 imm).toNat + width.bytes →
      load width ext rd rs1 imm s = .fault (.outOfBoundsMemoryAccess (effectiveAddress s rs1 imm) width)) ∧
    ∀ f, load width ext rd rs1 imm s = .fault f →
      s.mem.size < (effectiveAddress s rs1 imm).toNat + width.bytes ∧
        f = .outOfBoundsMemoryAccess (effectiveAddress s rs1 imm) width :=
  ⟨load_completes width ext rd rs1 imm s,
    fun hout => load_of_not_admitted width ext rd rs1 imm s (Nat.not_le.2 hout),
    fun _ h => (load_fault_inv width ext rd rs1 imm s h).imp_left Nat.not_le.1⟩

end

theorem decodeInstr_of_opcode_load {w : Word} (h : opcodeOf w = 0x03#7) :
    decodeInstr w = identifyLoad (funct3Of w) (rdOf w) (rs1Of w) (immI w) := by
  simp [decodeInstr_eq, h]

/-- Settles O20: a decoded word of opcode 0x03 is one of the five loads on its own fields, and each of those runs `load` with
its own width and widening. -/
theorem loadReadPath : Obligations.LoadReadPath := by
  intro w i hop hi
  have decoded := (decodeInstr_of_opcode_load hop).symm.trans hi
  rcases identifyLoad_cases (funct3Of w) (rdOf w) (rs1Of w) (immI w) with
    ⟨-, he⟩ | ⟨-, he⟩ | ⟨-, he⟩ | ⟨-, he⟩ | ⟨-, he⟩ | ⟨-, he⟩
  all_goals cases decoded.symm.trans he
  · exact ⟨.byte, widen .sign .byte, .inl ⟨rfl, rfl, fun _ => rfl⟩, load_readPath _ _ _ _ _⟩
  · exact ⟨.half, widen .sign .half, .inr (.inl ⟨rfl, rfl, fun _ => rfl⟩), load_readPath _ _ _ _ _⟩
  · exact ⟨.word, widen .asIs .word, .inr (.inr (.inl ⟨rfl, rfl, fun _ => rfl⟩)), load_readPath _ _ _ _ _⟩
  · exact ⟨.byte, widen .zero .byte, .inr (.inr (.inr (.inl ⟨rfl, rfl, fun _ => rfl⟩))), load_readPath _ _ _ _ _⟩
  · exact ⟨.half, widen .zero .half, .inr (.inr (.inr (.inr ⟨rfl, rfl, fun _ => rfl⟩))), load_readPath _ _ _ _ _⟩

end Sys2Proof.Machine
end

section
/-! PROOFS. The write path of the three stores (44_store.md R190). -/

namespace Sys2Proof.Machine

section
variable (width : Width) (rs1 rs2 : RegIdx) (imm : Word) (s : State)

/-- An admitted store into a canonical memory writes its own bytes and the pc, and nothing else. -/
theorem store_completes (hw : s.mem.wf) (h : Admitted s (effectiveAddress s rs1 imm) width) :
    CompletesStoring (store width rs1 rs2 imm s) s (effectiveAddress s rs1 imm).toNat width.bytes (s.readReg rs2)
      (s.pc + 4#32) := by
  rcases store_cases width rs1 rs2 imm s with ⟨-, he⟩ | ⟨hout, -⟩
  · exact ⟨_, he, fun _ => rfl, storeBytes_storesBytes s _ _ _ hw h _, rfl, rfl⟩
  · exact absurd h hout

/-- A store faults only where its access leaves the memory, and with that access. -/
theorem store_fault_inv {f : Fault} (h : store width rs1 rs2 imm s = .fault f) :
    ¬Admitted s (effectiveAddress s rs1 imm) width ∧
      f = .outOfBoundsMemoryAccess (effectiveAddress s rs1 imm) width := by
  rcases store_cases width rs1 rs2 imm s with ⟨-, he⟩ | ⟨hout, he⟩
  · cases h.symm.trans he
  · exact ⟨hout, Host.Outcome.fault.inj (h.symm.trans he)⟩

/-- The write path of R190, for every width. -/
theorem store_writePath (hs : s.Inv) :
    (Admitted s (effectiveAddress s rs1 imm) width →
      CompletesStoring (store width rs1 rs2 imm s) s (effectiveAddress s rs1 imm).toNat width.bytes (s.readReg rs2)
        (s.pc + 4#32)) ∧
    (s.mem.size < (effectiveAddress s rs1 imm).toNat + width.bytes →
      store width rs1 rs2 imm s = .fault (.outOfBoundsMemoryAccess (effectiveAddress s rs1 imm) width)) ∧
    ∀ f, store width rs1 rs2 imm s = .fault f →
      s.mem.size < (effectiveAddress s rs1 imm).toNat + width.bytes ∧
        f = .outOfBoundsMemoryAccess (effectiveAddress s rs1 imm) width :=
  ⟨store_completes width rs1 rs2 imm s hs.1,
    fun hout => store_of_not_admitted width rs1 rs2 imm s (Nat.not_le.2 hout),
    fun _ h => (store_fault_inv width rs1 rs2 imm s h).imp_left Nat.not_le.1⟩

end

theorem decodeInstr_of_opcode_store {w : Word} (h : opcodeOf w = 0x23#7) :
    decodeInstr w = identifyStore (funct3Of w) (rs1Of w) (rs2Of w) (immS w) := by
  simp [decodeInstr_eq, h]

/-- Settles O24: a decoded word of opcode 0x23 is one of the three stores on its own fields, and each of those runs `store` with
its own width. -/
theorem storeWritePath : Obligations.StoreWritePath := by
  intro w i hop hi
  have decoded := (decodeInstr_of_opcode_store hop).symm.trans hi
  rcases identifyStore_cases (funct3Of w) (rs1Of w) (rs2Of w) (immS w) with ⟨-, he⟩ | ⟨-, he⟩ | ⟨-, he⟩ | ⟨-, he⟩
  all_goals cases decoded.symm.trans he
  · exact ⟨.byte, .inl ⟨rfl, rfl⟩, store_writePath .byte _ _ _⟩
  · exact ⟨.half, .inr (.inl ⟨rfl, rfl⟩), store_writePath .half _ _ _⟩
  · exact ⟨.word, .inr (.inr ⟨rfl, rfl⟩), store_writePath .word _ _ _⟩

end Sys2Proof.Machine
end

section
/-! PROOFS. The state after a fault (60_exceptions.md R244). -/

namespace Sys2Proof.Machine

theorem sameMemory_of_mem_eq {s t : State} (h : t.mem = s.mem) : SameMemory s t :=
  ⟨congrArg Memory.size h, fun a => congrArg (Memory.byte · a) h⟩

/-- A step that ended in a fault raised no ecall event (R226). -/
theorem afterStep_fault_ecall (s : State) {r : Result} {f : Fault} (h : r = .fault f) : (afterStep s r).ecall = false := by
  subst h; rfl

/-- R244 for whatever ended in a fault: an instruction, a word or a run-step. -/
theorem afterStep_fault_unchanged (s : State) {r : Result} {f : Fault} (h : r = .fault f) :
    SameRegs s (afterStep s r) ∧ (afterStep s r).pc = s.pc ∧ SameMemory s (afterStep s r) ∧
      (afterStep s r).ecall = false := by
  obtain ⟨hregs, hpc, hmem⟩ := afterStep_fault_frame s h
  exact ⟨hregs, hpc, sameMemory_of_mem_eq hmem, afterStep_fault_ecall s h⟩

/-- Settles O48: a word and a run-step that fault leave the state as any fault does. -/
theorem faultLeavesTheStateUnchanged : Obligations.FaultLeavesTheStateUnchanged :=
  ⟨fun _ s _ hfault => afterStep_fault_unchanged s hfault, fun s _ hfault => afterStep_fault_unchanged s hfault⟩

end Sys2Proof.Machine
end

section
/-! PROOFS. The encoder and the decoder undo each other (30_encoding.md R81 to R100). -/

namespace Sys2Proof.Encoding

/-! ### A word is put together again from its own fields -/

section
variable (w : Word)

theorem encR_fields : encR (funct7Of w) (rs2Of w) (rs1Of w) (funct3Of w) (rdOf w) (opcodeOf w) = w := by
  unfold encR funct7Of rs2Of rs1Of funct3Of rdOf opcodeOf
  simp (disch := decide) only [BitVec.extractLsb'_append_extractLsb'_eq_extractLsb', BitVec.extractLsb'_eq_self]

theorem encI_fields : encI (immI w) (rs1Of w) (funct3Of w) (rdOf w) (opcodeOf w) = w := by
  unfold encI immI rs1Of funct3Of rdOf opcodeOf
  rw [extract_sext _ 0 12 (by decide) (by decide), BitVec.extractLsb'_eq_self]
  simp (disch := decide) only [BitVec.extractLsb'_append_extractLsb'_eq_extractLsb', BitVec.extractLsb'_eq_self]

theorem encS_fields : encS (immS w) (rs2Of w) (rs1Of w) (funct3Of w) (opcodeOf w) = w := by
  unfold encS immS rs2Of rs1Of funct3Of opcodeOf
  rw [extract_sext _ 5 7 (by decide) (by decide), extract_sext _ 0 5 (by decide) (by decide)]
  simp (disch := decide) only [BitVec.extractLsb'_append_eq_of_add_le, BitVec.extractLsb'_append_eq_of_le,
    BitVec.extractLsb'_eq_self, Nat.reduceSub]
  simp (disch := decide) only [BitVec.extractLsb'_append_extractLsb'_eq_extractLsb', BitVec.extractLsb'_eq_self]

theorem encSB_fields : encSB (immSB w) (rs2Of w) (rs1Of w) (funct3Of w) (opcodeOf w) = w := by
  unfold encSB immSB rs2Of rs1Of funct3Of opcodeOf
  rw [extract_sext _ 12 1 (by decide) (by decide), extract_sext _ 5 6 (by decide) (by decide),
    extract_sext _ 1 4 (by decide) (by decide), extract_sext _ 11 1 (by decide) (by decide)]
  simp (disch := decide) only [BitVec.extractLsb'_append_eq_of_add_le, BitVec.extractLsb'_append_eq_of_le,
    BitVec.extractLsb'_eq_self, Nat.reduceSub]
  simp (disch := decide) only [BitVec.extractLsb'_append_extractLsb'_eq_extractLsb', BitVec.extractLsb'_eq_self]

theorem encU_fields : encU (immU w) (rdOf w) (opcodeOf w) = w := by
  unfold encU immU rdOf opcodeOf
  simp (disch := decide) only [BitVec.extractLsb'_append_eq_of_le, BitVec.extractLsb'_eq_self, Nat.reduceSub]
  simp (disch := decide) only [BitVec.extractLsb'_append_extractLsb'_eq_extractLsb', BitVec.extractLsb'_eq_self]

theorem encUJ_fields : encUJ (immUJ w) (rdOf w) (opcodeOf w) = w := by
  unfold encUJ immUJ rdOf opcodeOf
  rw [extract_sext _ 20 1 (by decide) (by decide), extract_sext _ 1 10 (by decide) (by decide),
    extract_sext _ 11 1 (by decide) (by decide), extract_sext _ 12 8 (by decide) (by decide)]
  simp (disch := decide) only [BitVec.extractLsb'_append_eq_of_add_le, BitVec.extractLsb'_append_eq_of_le,
    BitVec.extractLsb'_eq_self, Nat.reduceSub]
  simp (disch := decide) only [BitVec.extractLsb'_append_extractLsb'_eq_extractLsb', BitVec.extractLsb'_eq_self]

end

/-- The twelve immediate bits of a shift are its upper seven and its amount (R91). -/
theorem encI_eq_encR (imm : Word) (rs1 : RegIdx) (f3 : BitVec 3) (rd : RegIdx) (op : BitVec 7) :
    encI imm rs1 f3 rd op = encR (imm.extractLsb' 5 7) (imm.extractLsb' 0 5) rs1 f3 rd op := by
  rw [encI, ← glue12]; rfl

/-! ### Decoding a word of given fields -/

section
variable (f7 : BitVec 7) (rs2 rs1 rd : RegIdx) (f3 : BitVec 3) {imm : Word}

theorem decodeInstr_encR : decodeInstr (encR f7 rs2 rs1 f3 rd 0x33#7) = identifyR f7 f3 rd rs1 rs2 := by
  simp [decodeInstr_eq]

theorem decodeInstr_encI_alu (h : fits12 imm = true) :
    decodeInstr (encI imm rs1 f3 rd 0x13#7) = identifyImm f3 rd rs1 imm := by
  simp [decodeInstr_eq, immI_encI _ _ _ _ _ h]

/-- A shift word: its upper seven bits select the shift, its amount is the field of rs2 (R91). -/
theorem decodeInstr_encR_shift (shamt : BitVec 5) :
    decodeInstr (encR f7 shamt rs1 f3 rd 0x13#7) = identifyImm f3 rd rs1 (sext (f7 ++ shamt)) := by
  simp [decodeInstr_eq]

theorem upper_shiftImm (shamt : BitVec 5) : (sext (f7 ++ shamt)).extractLsb' 5 7 = f7 := by
  rw [extract_sext _ 5 7 (by decide) (by decide)]
  simp (disch := decide) only [BitVec.extractLsb'_append_eq_of_le, BitVec.extractLsb'_eq_self, Nat.reduceSub]

theorem shamt_shiftImm (shamt : BitVec 5) : (sext (f7 ++ shamt)).extractLsb' 0 5 = shamt := by
  rw [extract_sext _ 0 5 (by decide) (by decide)]
  simp (disch := decide) only [BitVec.extractLsb'_append_eq_of_add_le, BitVec.extractLsb'_eq_self]

theorem decodeInstr_encI_load (h : fits12 imm = true) :
    decodeInstr (encI imm rs1 f3 rd 0x03#7) = identifyLoad f3 rd rs1 imm := by
  simp [decodeInstr_eq, immI_encI _ _ _ _ _ h]

theorem decodeInstr_encS (h : fits12 imm = true) :
    decodeInstr (encS imm rs2 rs1 f3 0x23#7) = identifyStore f3 rs1 rs2 imm := by
  simp [decodeInstr_eq, immS_encS _ _ _ _ _ h]

theorem decodeInstr_encSB (h : fitsBranch imm = true) :
    decodeInstr (encSB imm rs2 rs1 f3 0x63#7) = identifyBranch f3 rs1 rs2 imm := by
  simp [decodeInstr_eq, immSB_encSB _ _ _ _ _ h]

theorem decodeInstr_encU (h : fitsUpper imm = true) : decodeInstr (encU imm rd 0x37#7) = .ok (.lui rd imm) := by
  simp [decodeInstr_eq, immU_encU _ _ _ h]

theorem decodeInstr_encUJ (h : fitsJump imm = true) : decodeInstr (encUJ imm rd 0x6F#7) = .ok (.jal rd imm) := by
  simp [decodeInstr_eq, immUJ_encUJ _ _ _ h]

end

/-- Settles O4: the encoder's word has the opcode and fields of the instruction's own format, and `identify` on those fields
gives the instruction. -/
theorem decodeInvertsEncode : Obligations.DecodeInvertsEncode := by
  intro i hi
  cases i with
  | add | sub | sll | slt | sltu | xor | srl | sra | or | and => exact decodeInstr_encR ..
  | addi | slti | sltiu | xori | ori | andi => exact decodeInstr_encI_alu _ _ _ hi
  | slli | srli | srai =>
    refine (decodeInstr_encR_shift ..).trans ?_
    simp [identifyImm, upper_shiftImm, shamt_shiftImm]
  | lb | lh | lw | lbu | lhu => exact decodeInstr_encI_load _ _ _ hi
  | sb | sh | sw => exact decodeInstr_encS _ _ _ hi
  | beq | bne | blt | bge | bltu | bgeu => exact decodeInstr_encSB _ _ _ hi
  | lui => exact decodeInstr_encU _ hi
  | jal => exact decodeInstr_encUJ _ hi
  | ecall => rfl

/-! ### Encoding what was decoded -/

section
variable {f7 : BitVec 7} {f3 : BitVec 3} {rd rs1 rs2 : RegIdx} {imm : Word} {i : Instr}

theorem encode_of_identifyR (h : identifyR f7 f3 rd rs1 rs2 = .ok i) :
    encode i = encR f7 rs2 rs1 f3 rd 0x33#7 ∧ i.wellFormed = true := by
  rcases identifyR_cases f7 f3 rd rs1 rs2 with
    ⟨rfl, ⟨rfl, he⟩ | ⟨rfl, he⟩ | ⟨rfl, he⟩ | ⟨rfl, he⟩ | ⟨rfl, he⟩ | ⟨rfl, he⟩ | ⟨rfl, he⟩ | ⟨rfl, he⟩⟩ |
    ⟨rfl, rfl, he⟩ | ⟨rfl, rfl, he⟩ | ⟨-, -, he⟩
  all_goals cases h.symm.trans he
  all_goals exact ⟨rfl, rfl⟩

theorem encode_of_identifyImm (himm : fits12 imm = true) (h : identifyImm f3 rd rs1 imm = .ok i) :
    encode i = encI imm rs1 f3 rd 0x13#7 ∧ i.wellFormed = true := by
  rcases identifyImm_cases f3 rd rs1 imm with
    ⟨rfl, he⟩ | ⟨rfl, he⟩ | ⟨rfl, he⟩ | ⟨rfl, he⟩ | ⟨rfl, he⟩ | ⟨rfl, he⟩ |
    ⟨rfl, ⟨hu, he⟩ | ⟨-, he⟩⟩ | ⟨rfl, ⟨hu, he⟩ | ⟨hu, he⟩ | ⟨-, -, he⟩⟩
  all_goals cases h.symm.trans he
  iterate 6 exact ⟨rfl, himm⟩
  all_goals exact ⟨by rw [encI_eq_encR, hu]; rfl, rfl⟩

theorem encode_of_identifyLoad (himm : fits12 imm = true) (h : identifyLoad f3 rd rs1 imm = .ok i) :
    encode i = encI imm rs1 f3 rd 0x03#7 ∧ i.wellFormed = true := by
  rcases identifyLoad_cases f3 rd rs1 imm with
    ⟨rfl, he⟩ | ⟨rfl, he⟩ | ⟨rfl, he⟩ | ⟨rfl, he⟩ | ⟨rfl, he⟩ | ⟨-, he⟩
  all_goals cases h.symm.trans he
  all_goals exact ⟨rfl, himm⟩

theorem encode_of_identifyStore (himm : fits12 imm = true) (h : identifyStore f3 rs1 rs2 imm = .ok i) :
    encode i = encS imm rs2 rs1 f3 0x23#7 ∧ i.wellFormed = true := by
  rcases identifyStore_cases f3 rs1 rs2 imm with ⟨rfl, he⟩ | ⟨rfl, he⟩ | ⟨rfl, he⟩ | ⟨-, he⟩
  all_goals cases h.symm.trans he
  all_goals exact ⟨rfl, himm⟩

theorem encode_of_identifyBranch (himm : fitsBranch imm = true) (h : identifyBranch f3 rs1 rs2 imm = .ok i) :
    encode i = encSB imm rs2 rs1 f3 0x63#7 ∧ i.wellFormed = true := by
  rcases identifyBranch_cases f3 rs1 rs2 imm with
    ⟨rfl, he⟩ | ⟨rfl, he⟩ | ⟨rfl, he⟩ | ⟨rfl, he⟩ | ⟨rfl, he⟩ | ⟨rfl, he⟩ | ⟨-, he⟩
  all_goals cases h.symm.trans he
  all_goals exact ⟨rfl, himm⟩

end

/-- R100: of opcode 0x73, the word with every other field zero is 0x00000073 and no other. -/
theorem system_fields_zero_iff {w : Word} (hop : opcodeOf w = 0x73#7) :
    (rdOf w = 0#5 ∧ funct3Of w = 0b000#3 ∧ rs1Of w = 0#5 ∧ immI w = 0#32) ↔ w = 0x00000073#32 := by
  constructor
  · rintro ⟨hrd, hf3, hrs1, himm⟩
    rw [← encI_fields w, hop, hrd, hf3, hrs1, himm]
    rfl
  · rintro rfl
    decide

/-- Settles O5: by major opcode, the decoded instruction encodes to the word of the fields it was decoded from, which is `w`. -/
theorem encodeInvertsDecode : Obligations.EncodeInvertsDecode := by
  intro w i h
  have ofFields {v : Word} (he : encode i = v ∧ i.wellFormed = true) (hv : v = w) :
      encode i = w ∧ i.wellFormed = true := hv ▸ he
  rw [decodeInstr_eq] at h
  split_ifs at h with hR hI hL hS hB hU hJ hE hecall
  · exact ofFields (encode_of_identifyR h) (hR ▸ encR_fields w)
  · exact ofFields (encode_of_identifyImm (fits_immI w) h) (hI ▸ encI_fields w)
  · exact ofFields (encode_of_identifyLoad (fits_immI w) h) (hL ▸ encI_fields w)
  · exact ofFields (encode_of_identifyStore (fits_immS w) h) (hS ▸ encS_fields w)
  · exact ofFields (encode_of_identifyBranch (fits_immSB w) h) (hB ▸ encSB_fields w)
  · cases h
    exact ofFields (v := encU (immU w) (rdOf w) 0x37#7) ⟨rfl, fits_immU w⟩ (hU ▸ encU_fields w)
  · cases h
    exact ofFields (v := encUJ (immUJ w) (rdOf w) 0x6F#7) ⟨rfl, fits_immUJ w⟩ (hJ ▸ encUJ_fields w)
  · cases h
    exact ofFields ⟨rfl, rfl⟩ ((system_fields_zero_iff hE).1 hecall).symm

end Sys2Proof.Encoding
end

section
/-! PROOFS. Whole-machine rules (10_state.md sections 1, 2 and 5): what every step keeps, and the registers and the memory a
word can change. Each is proved of one instruction from `exec_cases` and carried to words and run-steps. -/

namespace Sys2Proof.Machine

/-! ### From an instruction to a word and a run-step -/

/-- A word that completes is the instruction it decodes to. -/
theorem stepWord_next_inv {w : Word} {s t : State} (h : stepWord w s = .next t) :
    ∃ i, decodeInstr w = .ok i ∧ exec i s = .next t := by
  rcases stepWord_cases w s with ⟨i, hi, he⟩ | ⟨r, -, he⟩
  · exact ⟨i, hi, he.symm.trans h⟩
  · cases h.symm.trans he

/-- A run-step that completes is the step of the word it fetched. -/
theorem step_next_inv {s t : State} (h : step s = .next t) : ∃ w, fetch s = .ok w ∧ stepWord w s = .next t := by
  rcases step_cases s with ⟨w, hw, he⟩ | ⟨-, he⟩
  · exact ⟨w, hw, he.symm.trans h⟩
  · cases h.symm.trans he

/-- What every word keeps, every run-step keeps: it is the step of some word. -/
theorem step_of_stepWord {P : State → State → Prop} (hP : ∀ (w : Word) (s t : State), stepWord w s = .next t → P s t)
    {s t : State} (h : step s = .next t) : P s t := by
  obtain ⟨w, -, hw⟩ := step_next_inv h
  exact hP w s t hw

/-! ### The invariant -/

theorem inv_of_same_mem {s t : State} (hs : s.Inv) (hmem : t.mem = s.mem) (hcell : t.regs[0] = s.regs[0]) :
    t.Inv ∧ t.mem.size = s.mem.size := by
  obtain ⟨hwf, hsize, hzero⟩ := hs
  exact ⟨⟨hmem ▸ hwf, hmem ▸ hsize, hcell.trans hzero⟩, congrArg Memory.size hmem⟩

theorem inv_storeBytes {s : State} (hs : s.Inv) {a n : Nat} (v pc' : Word) (hin : a + n ≤ s.mem.size) :
    (State.complete { s with mem := s.mem.storeBytes a v n } pc').Inv := by
  obtain ⟨hwf, ⟨hpos, hmax⟩, hzero⟩ := hs
  have hsize := storeBytes_size s.mem a v n
  exact ⟨storeBytes_wf _ _ _ _ hwf hin, ⟨hpos.trans_eq hsize.symm, hsize.trans_le hmax⟩, hzero⟩

/-- A register write leaves the memory and the cell of register 0 alone, a store keeps the canonical form, and the pc and the
event are no part of the invariant. -/
theorem exec_inv {i : Instr} {s t : State} (hs : s.Inv) (h : exec i s = .next t) : t.Inv ∧ t.mem.size = s.mem.size := by
  rcases exec_cases i s with ⟨rd, v, he⟩ | ⟨rd, off, -, he⟩ | ⟨c, rs1, rs2, off, -, he⟩ |
    ⟨width, rs1, rs2, imm, -, hin, he⟩ | ⟨-, he⟩ | ⟨ea, width, -, he⟩
  all_goals cases h.symm.trans he
  · exact inv_of_same_mem hs (writeReg_mem ..) (writeReg_cell_zero ..)
  · exact inv_of_same_mem hs (writeReg_mem ..) (writeReg_cell_zero ..)
  · exact inv_of_same_mem hs rfl rfl
  · exact ⟨inv_storeBytes hs _ _ hin, storeBytes_size ..⟩
  · exact inv_of_same_mem hs rfl rfl

theorem stepWord_inv (w : Word) (s t : State) (h : stepWord w s = .next t) (hs : s.Inv) :
    t.Inv ∧ t.mem.size = s.mem.size := by
  obtain ⟨i, -, hi⟩ := stepWord_next_inv h
  exact exec_inv hs hi

/-- Settles O50, by `exec_inv`: a step that completes is one instruction. -/
theorem stepKeepsTheInvariant : Obligations.StepKeepsTheInvariant :=
  ⟨fun w s t hs h => stepWord_inv w s t h hs, fun _ _ hs h => step_of_stepWord stepWord_inv h hs⟩

/-! ### Bit 0 of the pc -/

/-- Adding an even offset, modulo 2^32, keeps bit 0. -/
theorem getLsbD_zero_add_even {a b : Word} (h : b.toNat % 2 = 0) : (a + b).getLsbD 0 = a.getLsbD 0 := by
  simp only [BitVec.getLsbD, Nat.testBit_zero, BitVec.toNat_add]
  congr 2
  omega

theorem getLsbD_zero_branchTarget (taken : Bool) (pc : Word) {offset : Word} (h : offset.toNat % 2 = 0) :
    (branchTarget taken pc offset).getLsbD 0 = pc.getLsbD 0 := by
  cases taken with
  | true => exact getLsbD_zero_add_even h
  | false => exact getLsbD_zero_add_even (by decide)

theorem even_of_fitsBranch {v : Word} (h : fitsBranch v = true) : v.toNat % 2 = 0 := by
  simp only [fitsBranch, Bool.and_eq_true, decide_eq_true_eq] at h
  exact h.2

theorem even_of_fitsJump {v : Word} (h : fitsJump v = true) : v.toNat % 2 = 0 := by
  simp only [fitsJump, Bool.and_eq_true, decide_eq_true_eq] at h
  exact h.2

/-- The pc moves by 4 or by the offset of a branch or a jump, which is even in every instruction a word encodes. -/
theorem exec_pc_bit_zero {i : Instr} {s t : State} (hi : i.wellFormed = true) (h : exec i s = .next t) :
    t.pc.getLsbD 0 = s.pc.getLsbD 0 := by
  have four : (s.pc + 4#32).getLsbD 0 = s.pc.getLsbD 0 := getLsbD_zero_add_even (by decide)
  rcases exec_cases i s with ⟨rd, v, he⟩ | ⟨rd, off, hjal, he⟩ | ⟨c, rs1, rs2, off, hbranch, he⟩ |
    ⟨width, rs1, rs2, imm, -, -, he⟩ | ⟨-, he⟩ | ⟨ea, width, -, he⟩
  all_goals cases h.symm.trans he
  · exact four
  · subst hjal
    exact getLsbD_zero_branchTarget _ _ (even_of_fitsJump hi)
  · have hoff : fitsBranch off = true := by
      rcases hbranch with rfl | rfl | rfl | rfl | rfl | rfl <;> exact hi
    exact getLsbD_zero_branchTarget _ _ (even_of_fitsBranch hoff)
  · exact four
  · exact four

theorem stepWord_pc_bit_zero (w : Word) (s t : State) (h : stepWord w s = .next t) :
    t.pc.getLsbD 0 = s.pc.getLsbD 0 := by
  obtain ⟨i, hw, hi⟩ := stepWord_next_inv h
  exact exec_pc_bit_zero (Encoding.encodeInvertsDecode w i hw).2 hi

/-- Settles O53: what a word decodes to is well formed, so its offset is even. -/
theorem pcBitZeroNeverChanges : Obligations.PcBitZeroNeverChanges :=
  ⟨stepWord_pc_bit_zero, fun _ _ h => step_of_stepWord stepWord_pc_bit_zero h⟩

/-! ### Which register and which part of the memory a word can change -/

end Sys2Proof.Machine

namespace Sys2Proof

/-- The register an instruction writes, if its format has one. -/
def Instr.dest : Instr → Option RegIdx
  | .add rd _ _ | .sub rd _ _ | .sll rd _ _ | .slt rd _ _ | .sltu rd _ _ => some rd
  | .xor rd _ _ | .srl rd _ _ | .sra rd _ _ | .or rd _ _ | .and rd _ _ => some rd
  | .addi rd _ _ | .slti rd _ _ | .sltiu rd _ _ | .xori rd _ _ | .ori rd _ _ | .andi rd _ _ => some rd
  | .slli rd _ _ | .srli rd _ _ | .srai rd _ _ => some rd
  | .lb rd _ _ | .lh rd _ _ | .lw rd _ _ | .lbu rd _ _ | .lhu rd _ _ => some rd
  | .lui rd _ | .jal rd _ => some rd
  | .sb _ _ _ | .sh _ _ _ | .sw _ _ _ => none
  | .beq _ _ _ | .bne _ _ _ | .blt _ _ _ | .bge _ _ _ | .bltu _ _ _ | .bgeu _ _ _ => none
  | .ecall => none

end Sys2Proof

namespace Sys2Proof.Encoding

/-- The destination stands in w[11:7] (R82). -/
theorem rdOf_encode {i : Instr} {rd : RegIdx} (h : i.dest = some rd) : rdOf (encode i) = rd := by
  cases i with
  | add | sub | sll | slt | sltu | xor | srl | sra | or | and => cases h; exact rdOf_encR ..
  | addi | slti | sltiu | xori | ori | andi => cases h; exact rdOf_encI ..
  | slli | srli | srai => cases h; exact rdOf_encR ..
  | lb | lh | lw | lbu | lhu => cases h; exact rdOf_encI ..
  | lui => cases h; exact rdOf_encU ..
  | jal => cases h; exact rdOf_encUJ ..
  | sb | sh | sw | beq | bne | blt | bge | bltu | bgeu | ecall => cases h

/-- The formats without rd are those of the store, branch and system opcodes (R81). -/
theorem dest_eq_none_of_opcode {i : Instr} (h : opcodeOf (encode i) ∈ [0x23#7, 0x63#7, 0x73#7]) : i.dest = none := by
  cases i with
  | add | sub | sll | slt | sltu | xor | srl | sra | or | and => exact absurd h (by rw [encode, opcodeOf_encR]; decide)
  | addi | slti | sltiu | xori | ori | andi => exact absurd h (by rw [encode, opcodeOf_encI]; decide)
  | slli | srli | srai => exact absurd h (by rw [encode, opcodeOf_encR]; decide)
  | lb | lh | lw | lbu | lhu => exact absurd h (by rw [encode, opcodeOf_encI]; decide)
  | lui => exact absurd h (by rw [encode, opcodeOf_encU]; decide)
  | jal => exact absurd h (by rw [encode, opcodeOf_encUJ]; decide)
  | sb | sh | sw | beq | bne | blt | bge | bltu | bgeu | ecall => rfl

end Sys2Proof.Encoding

namespace Sys2Proof.Machine

/-- An instruction changes no register but its destination. -/
theorem exec_readReg_of_ne_dest {i : Instr} {s t : State} (h : exec i s = .next t) {r : RegIdx}
    (hr : i.dest ≠ some r) : t.readReg r = s.readReg r := by
  have wb : ∀ {rd : RegIdx} {v : Word}, i.dest = some rd → writeback rd v s = .next t → t.readReg r = s.readReg r := by
    intro rd v hd ht
    cases ht
    exact readReg_writeReg_other s rd r v fun e => hr (e ▸ hd)
  have ld : ∀ {width : Width} {ext : Widening} {rd rs1 : RegIdx} {imm : Word}, i.dest = some rd →
      load width ext rd rs1 imm s = .next t → t.readReg r = s.readReg r := by
    intro width ext rd rs1 imm hd ht
    rcases load_cases width ext rd rs1 imm s with ⟨-, he⟩ | ⟨-, he⟩
    · exact wb hd (he.symm.trans ht)
    · cases he.symm.trans ht
  have st : ∀ {width : Width} {rs1 rs2 : RegIdx} {imm : Word},
      store width rs1 rs2 imm s = .next t → t.readReg r = s.readReg r := by
    intro width rs1 rs2 imm ht
    rcases store_cases width rs1 rs2 imm s with ⟨-, he⟩ | ⟨-, he⟩
    · cases he.symm.trans ht; rfl
    · cases he.symm.trans ht
  cases i with
  | add | sub | sll | slt | sltu | xor | srl | sra | or | and => exact wb rfl h
  | addi | slti | sltiu | xori | ori | andi | slli | srli | srai | lui => exact wb rfl h
  | lb | lh | lw | lbu | lhu => exact ld rfl h
  | sb | sh | sw => exact st h
  | beq | bne | blt | bge | bltu | bgeu => cases h; rfl
  | jal rd off =>
    cases h
    exact readReg_writeReg_other s rd r _ fun e => hr (e ▸ rfl)
  | ecall => cases h; rfl

/-- Settles O55: the destination of the decoded instruction is w[11:7]. -/
theorem onlyTheNamedRegisterChanges : Obligations.OnlyTheNamedRegisterChanges := by
  intro w s t h r hr
  obtain ⟨i, hw, hi⟩ := stepWord_next_inv h
  obtain ⟨rfl, -⟩ := Encoding.encodeInvertsDecode w i hw
  exact exec_readReg_of_ne_dest hi fun hd => hr (Encoding.rdOf_encode hd).symm

/-- An instruction that is no store leaves the memory alone. -/
theorem exec_mem_of_not_store {i : Instr} {s t : State} (h : exec i s = .next t)
    (hi : opcodeOf (encode i) ≠ 0x23#7) : t.mem = s.mem := by
  rcases exec_cases i s with ⟨rd, v, he⟩ | ⟨rd, off, -, he⟩ | ⟨c, rs1, rs2, off, -, he⟩ |
    ⟨width, rs1, rs2, imm, hstore, -, -⟩ | ⟨-, he⟩ | ⟨ea, width, -, he⟩
  case inr.inr.inr.inl =>
    rcases hstore with rfl | rfl | rfl <;> exact absurd (opcodeOf_encS ..) hi
  all_goals cases h.symm.trans he
  · exact writeReg_mem ..
  · exact writeReg_mem ..
  · rfl
  · rfl

/-- Settles O54: memory changes by an instruction of the store opcode alone, and an instruction of the other three formats has
no destination. -/
theorem onlyStoresChangeMemory : Obligations.OnlyStoresChangeMemory := by
  intro w s t h
  obtain ⟨i, hw, hi⟩ := stepWord_next_inv h
  obtain ⟨rfl, -⟩ := Encoding.encodeInvertsDecode w i hw
  refine ⟨fun hop => sameMemory_of_mem_eq (exec_mem_of_not_store hi hop), fun hop r => exec_readReg_of_ne_dest hi ?_⟩
  rw [Encoding.dest_eq_none_of_opcode hop]
  exact nofun

end Sys2Proof.Machine
end

section
/-! PROOFS. How a step ends: the ecall output, the faults, the outputs at the boundary (48_system.md R226, 60_exceptions.md R241
to R245, 10_state.md R34). -/

namespace Sys2Proof.Machine

/-! ### The ecall output -/

/-- An instruction that completes sets the ecall output exactly if it is ECALL. -/
theorem exec_ecall_iff {i : Instr} {s t : State} (h : exec i s = .next t) : t.ecall = true ↔ i = .ecall := by
  constructor
  · intro ht
    rcases exec_cases i s with ⟨rd, v, he⟩ | ⟨rd, off, -, he⟩ | ⟨c, rs1, rs2, off, -, he⟩ |
      ⟨width, rs1, rs2, imm, -, -, he⟩ | ⟨hi, -⟩ | ⟨ea, width, -, he⟩
    case inr.inr.inr.inr.inl => exact hi
    all_goals cases h.symm.trans he
    all_goals cases ht
  · rintro rfl
    cases h
    rfl

theorem decodeInstr_eq_ecall_iff {w : Word} {i : Instr} (h : decodeInstr w = .ok i) : i = .ecall ↔ w = 0x00000073#32 := by
  constructor
  · rintro rfl
    exact (Encoding.encodeInvertsDecode w _ h).1.symm
  · rintro rfl
    cases h
    rfl

/-- Settles O56: ECALL alone sets the output, and 0x00000073 is the only word that decodes to it. -/
theorem ecallOutputIsOneForEcallAlone : Obligations.EcallOutputIsOneForEcallAlone := by
  intro w s t h
  obtain ⟨i, hw, hi⟩ := stepWord_next_inv h
  exact (exec_ecall_iff hi).trans (decodeInstr_eq_ecall_iff hw)

/-! ### The ecall field is read by no step -/

section
variable (s : State) (b : Bool)

theorem writeReg_complete_withEcall (rd : RegIdx) (v pc' : Word) :
    (({ s with ecall := b } : State).writeReg rd v).complete pc' = (s.writeReg rd v).complete pc' := by
  unfold State.writeReg
  split <;> rfl

theorem writeback_withEcall (rd : RegIdx) (v : Word) : writeback rd v { s with ecall := b } = writeback rd v s :=
  congrArg Host.Outcome.next (writeReg_complete_withEcall s b rd v s.pcNext)

theorem load_withEcall (width : Width) (ext : Widening) (rd rs1 : RegIdx) (imm : Word) :
    load width ext rd rs1 imm { s with ecall := b } = load width ext rd rs1 imm s := by
  have hea : effectiveAddress { s with ecall := b } rs1 imm = effectiveAddress s rs1 imm := rfl
  simp only [load, hea]
  cases memRead s.mem (effectiveAddress s rs1 imm) width with
  | ok v => exact writeback_withEcall s b rd _
  | error f => rfl

/-- Every instruction sets the field itself, whatever it held. -/
theorem exec_withEcall (i : Instr) : exec i { s with ecall := b } = exec i s := by
  cases i with
  | add | sub | sll | slt | sltu | xor | srl | sra | or | and => exact writeback_withEcall s b _ _
  | addi | slti | sltiu | xori | ori | andi | slli | srli | srai | lui => exact writeback_withEcall s b _ _
  | lb | lh | lw | lbu | lhu => exact load_withEcall s b _ _ _ _ _
  | sb | sh | sw => rfl
  | beq | bne | blt | bge | bltu | bgeu => rfl
  | jal rd off => exact congrArg Host.Outcome.next (writeReg_complete_withEcall s b rd _ _)
  | ecall => rfl

theorem stepWord_withEcall (w : Word) : stepWord w { s with ecall := b } = stepWord w s := by
  unfold stepWord
  cases decodeInstr w with
  | ok i => exact exec_withEcall s b i
  | error r => rfl

theorem step_withEcall : step { s with ecall := b } = step s := by
  have hfetch : fetch { s with ecall := b } = fetch s := rfl
  unfold step runStep
  rw [hfetch]
  cases fetch s with
  | ok w => exact stepWord_withEcall s b w
  | error f => rfl

end

/-- Settles O57: the fetch, the decoder and every instruction leave the field unread. -/
theorem noStepReadsTheEcallField : Obligations.NoStepReadsTheEcallField :=
  fun s b => ⟨step_withEcall s b, stepWord_withEcall s b⟩

/-! ### Which faults there are -/

/-- The one fault of an instruction is an access out of bounds. -/
theorem exec_fault_inv {i : Instr} {s : State} {f : Fault} (h : exec i s = .fault f) :
    ∃ ea width, f = .outOfBoundsMemoryAccess ea width := by
  rcases exec_cases i s with ⟨_, _, he⟩ | ⟨_, _, _, he⟩ | ⟨_, _, _, _, _, he⟩ | ⟨_, _, _, _, _, _, he⟩ | ⟨_, he⟩ |
    ⟨ea, width, -, he⟩
  case inr.inr.inr.inr.inr => exact ⟨ea, width, Host.Outcome.fault.inj (h.symm.trans he)⟩
  all_goals cases h.symm.trans he

/-- The fault of a word is its own, if it is unsupported, or that of its instruction. -/
theorem stepWord_fault_inv {w : Word} {s : State} {f : Fault} (h : stepWord w s = .fault f) :
    f = .unsupportedInstruction w ∨ ∃ ea width, f = .outOfBoundsMemoryAccess ea width := by
  rcases stepWord_cases w s with ⟨i, -, he⟩ | ⟨r, -, he⟩
  · exact .inr (exec_fault_inv (he.symm.trans h))
  · exact .inl (Host.Outcome.fault.inj (h.symm.trans he))

theorem stepWord_ne_misaligned (w : Word) (s : State) : stepWord w s ≠ .fault .misalignedAccess := by
  intro h
  rcases stepWord_fault_inv h with hf | ⟨_, _, hf⟩ <;> cases hf

theorem step_ne_misaligned (s : State) : step s ≠ .fault .misalignedAccess := by
  intro h
  rcases step_cases s with ⟨w, -, he⟩ | ⟨-, he⟩
  · exact stepWord_ne_misaligned w s (he.symm.trans h)
  · cases he.symm.trans h

/-- Settles O49: an instruction that faults is one of the five loads or three stores, each with its own width. -/
theorem faultsAreThoseOfTheTable : Obligations.FaultsAreThoseOfTheTable := by
  refine ⟨fun i s f h => ?table, stepWord_ne_misaligned, step_ne_misaligned⟩
  have ld : ∀ {width ext rd rs1 imm}, load width ext rd rs1 imm s = .fault f →
      s.mem.size < (s.readReg rs1 + imm).toNat + width.bytes ∧ f = .outOfBoundsMemoryAccess (s.readReg rs1 + imm) width :=
    fun h => (load_fault_inv _ _ _ _ _ s h).imp_left Nat.not_le.1
  have st : ∀ {width rs1 rs2 imm}, store width rs1 rs2 imm s = .fault f →
      s.mem.size < (s.readReg rs1 + imm).toNat + width.bytes ∧ f = .outOfBoundsMemoryAccess (s.readReg rs1 + imm) width :=
    fun h => (store_fault_inv _ _ _ _ s h).imp_left Nat.not_le.1
  cases i with
  | lb rd rs1 imm => exact ⟨rs1, imm, .byte, .inl ⟨rd, rfl, .inl rfl⟩, ld h⟩
  | lbu rd rs1 imm => exact ⟨rs1, imm, .byte, .inl ⟨rd, rfl, .inr rfl⟩, ld h⟩
  | lh rd rs1 imm => exact ⟨rs1, imm, .half, .inr (.inl ⟨rd, rfl, .inl rfl⟩), ld h⟩
  | lhu rd rs1 imm => exact ⟨rs1, imm, .half, .inr (.inl ⟨rd, rfl, .inr rfl⟩), ld h⟩
  | lw rd rs1 imm => exact ⟨rs1, imm, .word, .inr (.inr (.inl ⟨rd, rfl, rfl⟩)), ld h⟩
  | sb rs1 rs2 imm => exact ⟨rs1, imm, .byte, .inr (.inr (.inr ⟨rs2, .inl ⟨rfl, rfl⟩⟩)), st h⟩
  | sh rs1 rs2 imm => exact ⟨rs1, imm, .half, .inr (.inr (.inr ⟨rs2, .inr (.inl ⟨rfl, rfl⟩)⟩)), st h⟩
  | sw rs1 rs2 imm => exact ⟨rs1, imm, .word, .inr (.inr (.inr ⟨rs2, .inr (.inr ⟨rfl, rfl⟩)⟩)), st h⟩
  | add | sub | sll | slt | sltu | xor | srl | sra | or | and => cases h
  | addi | slti | sltiu | xori | ori | andi | slli | srli | srai | lui => cases h
  | beq | bne | blt | bge | bltu | bgeu | jal | ecall => cases h

/-! ### The outputs -/

/-- Settles O46: a word that decodes to no instruction raises its own fault, reported and followed by the pre-state. -/
theorem unsupportedWordIsReported : Obligations.UnsupportedWordIsReported := by
  intro w s hw
  have hfault : stepWord w s = .fault (.unsupportedInstruction w) := by
    rcases stepWord_cases w s with ⟨i, hi, -⟩ | ⟨r, -, he⟩
    · exact absurd hi (hw i)
    · exact he
  exact ⟨hfault, by rw [hfault]; rfl, by rw [hfault]; rfl⟩

theorem Width.bytes_mem (width : Width) : width.bytes ∈ [1, 2, 4] := by cases width <;> decide

/-- Settles O47: `report` read off each outcome; the event is the one of `ecallOutputIsOneForEcallAlone`. -/
theorem outputsOfAStep : Obligations.OutputsOfAStep := by
  intro w s
  refine ⟨fun ea width h => ⟨by rw [h]; rfl, width.bytes_mem⟩, fun t h => ?completes⟩
  have hecall : t.ecall = decide (w = 0x00000073#32) :=
    Bool.eq_iff_iff.2 ((ecallOutputIsOneForEcallAlone w s t h).trans decide_eq_true_iff.symm)
  exact ⟨_, by rw [h]; rfl, rfl, rfl, rfl, hecall, rfl⟩

end Sys2Proof.Machine
end

section
/-! PROOFS. Which words decode, and to what: the variants, the opcode table, the unsupported space (40_decoder_block.md R121,
INDEX.md, 30_encoding.md R101). -/

namespace Sys2Proof.Encoding

/-- Settles O1: eleven fixed words, evaluated. -/
theorem referenceWordsDecode : Obligations.ReferenceWordsDecode := by
  unfold Obligations.ReferenceWordsDecode
  decide

/-- Settles O8: the tests of `decode` on the opcode are disjoint, so each opcode takes its own branch. -/
theorem variantIsChosenByMajorOpcode : Obligations.VariantIsChosenByMajorOpcode := by
  intro w op rd f3 rs1 rs2
  simp only [decode, show opcodeOf w = op from rfl]
  clear_value op
  refine ⟨?_, ?register, ?_, ?_, ?_, ?_, ?_, ?unsupported⟩
  case register => rintro (rfl | rfl) <;> rfl
  case unsupported =>
    intro h
    simp only [List.mem_cons, List.not_mem_nil, or_false, not_or] at h
    simp [h]
  all_goals
    rintro rfl
    rfl

/-! ### The opcode table -/

section
variable {w b : Word}

/-- A word equal to a row's bits under the mask 0x0000007F has the row's opcode; under 0x0000707F its funct3 too, and under
0xFE00707F its funct7. -/
theorem opcodeOf_of_mask (h : w &&& 0x0000007F#32 = b) : opcodeOf w = opcodeOf b := by
  rw [← h, opcodeOf, opcodeOf, BitVec.extractLsb'_and]
  exact (ones7 _).symm

theorem fields_of_mask3 (h : w &&& 0x0000707F#32 = b) : opcodeOf w = opcodeOf b ∧ funct3Of w = funct3Of b := by
  rw [← h, opcodeOf, opcodeOf, funct3Of, funct3Of, BitVec.extractLsb'_and, BitVec.extractLsb'_and]
  exact ⟨(ones7 _).symm, (ones3 _).symm⟩

theorem fields_of_mask7 (h : w &&& 0xFE00707F#32 = b) :
    opcodeOf w = opcodeOf b ∧ funct3Of w = funct3Of b ∧ funct7Of w = funct7Of b := by
  rw [← h, opcodeOf, opcodeOf, funct3Of, funct3Of, funct7Of, funct7Of, BitVec.extractLsb'_and, BitVec.extractLsb'_and,
    BitVec.extractLsb'_and]
  exact ⟨(ones7 _).symm, (ones3 _).symm, (ones7 _).symm⟩

end

/-- w[31:25] is imm_I[11:5] (R86, R91). -/
theorem upper_immI (w : Word) : (immI w).extractLsb' 5 7 = funct7Of w := by
  rw [immI, extract_sext _ 5 7 (by decide) (by decide)]
  ext i hi
  simp [funct7Of, show 5 + i < 12 by omega, ← Nat.add_assoc]

/-- The word decodes, and to an instruction of this mnemonic. -/
def DecodesAs (w : Word) (mnemonic : String) : Prop := ∃ i, decodeInstr w = .ok i ∧ i.mnemonic = mnemonic

theorem decodeInstr_of_opcode_imm {w : Word} (h : opcodeOf w = 0x13#7) :
    decodeInstr w = identifyImm (funct3Of w) (rdOf w) (rs1Of w) (immI w) := by
  simp [decodeInstr_eq, h]

theorem decodeInstr_of_opcode_branch {w : Word} (h : opcodeOf w = 0x63#7) :
    decodeInstr w = identifyBranch (funct3Of w) (rs1Of w) (rs2Of w) (immSB w) := by
  simp [decodeInstr_eq, h]

theorem decodeInstr_of_opcode_lui {w : Word} (h : opcodeOf w = 0x37#7) :
    decodeInstr w = .ok (.lui (rdOf w) (immU w)) := by
  simp [decodeInstr_eq, h]

theorem decodeInstr_of_opcode_jal {w : Word} (h : opcodeOf w = 0x6F#7) :
    decodeInstr w = .ok (.jal (rdOf w) (immUJ w)) := by
  simp [decodeInstr_eq, h]

theorem decodesAs_of_rowsR {w : Word} {r : OpRow} (hr : r ∈ rowsR) (h : r.accepts w = true) : DecodesAs w r.mnemonic := by
  simp only [rowsR, List.mem_cons, List.not_mem_nil, or_false] at hr
  rcases hr with rfl | rfl | rfl | rfl | rfl | rfl | rfl | rfl | rfl | rfl
  all_goals
    obtain ⟨hop, h3, h7⟩ := fields_of_mask7 (beq_iff_eq.1 h)
    exact ⟨_, by rw [Machine.decodeInstr_of_opcode_reg hop, h3, h7]; rfl, rfl⟩

theorem decodesAs_of_rowsI {w : Word} {r : OpRow} (hr : r ∈ rowsI) (h : r.accepts w = true) : DecodesAs w r.mnemonic := by
  simp only [rowsI, List.mem_cons, List.not_mem_nil, or_false] at hr
  rcases hr with rfl | rfl | rfl | rfl | rfl | rfl | rfl | rfl | rfl
  iterate 6
    · obtain ⟨hop, h3⟩ := fields_of_mask3 (beq_iff_eq.1 h)
      exact ⟨_, by rw [decodeInstr_of_opcode_imm hop, h3]; rfl, rfl⟩
  all_goals
    obtain ⟨hop, h3, h7⟩ := fields_of_mask7 (beq_iff_eq.1 h)
    exact ⟨_, by rw [decodeInstr_of_opcode_imm hop, h3, identifyImm, upper_immI, h7]; rfl, rfl⟩

theorem decodesAs_of_rowsMem {w : Word} {r : OpRow} (hr : r ∈ rowsMem) (h : r.accepts w = true) :
    DecodesAs w r.mnemonic := by
  simp only [rowsMem, List.mem_cons, List.not_mem_nil, or_false] at hr
  rcases hr with rfl | rfl | rfl | rfl | rfl | rfl | rfl | rfl
  all_goals obtain ⟨hop, h3⟩ := fields_of_mask3 (beq_iff_eq.1 h)
  iterate 5 exact ⟨_, by rw [Machine.decodeInstr_of_opcode_load hop, h3]; rfl, rfl⟩
  all_goals exact ⟨_, by rw [Machine.decodeInstr_of_opcode_store hop, h3]; rfl, rfl⟩

theorem decodesAs_of_rowsCtl {w : Word} {r : OpRow} (hr : r ∈ rowsCtl) (h : r.accepts w = true) :
    DecodesAs w r.mnemonic := by
  simp only [rowsCtl, List.mem_cons, List.not_mem_nil, or_false] at hr
  rcases hr with rfl | rfl | rfl | rfl | rfl | rfl | rfl | rfl | rfl
  iterate 6
    · obtain ⟨hop, h3⟩ := fields_of_mask3 (beq_iff_eq.1 h)
      exact ⟨_, by rw [decodeInstr_of_opcode_branch hop, h3]; rfl, rfl⟩
  · exact ⟨_, decodeInstr_of_opcode_lui (opcodeOf_of_mask (beq_iff_eq.1 h)), rfl⟩
  · exact ⟨_, decodeInstr_of_opcode_jal (opcodeOf_of_mask (beq_iff_eq.1 h)), rfl⟩
  · have hw : w = 0x00000073#32 := (BitVec.and_allOnes (x := w)).symm.trans (beq_iff_eq.1 h)
    exact ⟨.ecall, by rw [hw]; rfl, rfl⟩

/-- A word that a row accepts decodes to an instruction of the row's mnemonic. -/
theorem decodesAs_of_accepts {w : Word} {r : OpRow} (hr : r ∈ opcodeRows) (h : r.accepts w = true) :
    DecodesAs w r.mnemonic := by
  simp only [opcodeRows, List.mem_append] at hr
  rcases hr with ((hR | hI) | hMem) | hCtl
  · exact decodesAs_of_rowsR hR h
  · exact decodesAs_of_rowsI hI h
  · exact decodesAs_of_rowsMem hMem h
  · exact decodesAs_of_rowsCtl hCtl h

/-- Every instruction's word is accepted by a row of its own mnemonic. -/
theorem row_accepts_encode (i : Instr) : ∃ r ∈ opcodeRows, r.mnemonic = i.mnemonic ∧ r.accepts (encode i) = true := by
  cases i with
  | add => exact Laws.EncodeMatchesRow.add ..
  | sub => exact Laws.EncodeMatchesRow.sub ..
  | sll => exact Laws.EncodeMatchesRow.sll ..
  | slt => exact Laws.EncodeMatchesRow.slt ..
  | sltu => exact Laws.EncodeMatchesRow.sltu ..
  | xor => exact Laws.EncodeMatchesRow.xor ..
  | srl => exact Laws.EncodeMatchesRow.srl ..
  | sra => exact Laws.EncodeMatchesRow.sra ..
  | or => exact Laws.EncodeMatchesRow.or ..
  | and => exact Laws.EncodeMatchesRow.and ..
  | addi => exact Laws.EncodeMatchesRow.addi ..
  | slti => exact Laws.EncodeMatchesRow.slti ..
  | sltiu => exact Laws.EncodeMatchesRow.sltiu ..
  | xori => exact Laws.EncodeMatchesRow.xori ..
  | ori => exact Laws.EncodeMatchesRow.ori ..
  | andi => exact Laws.EncodeMatchesRow.andi ..
  | slli => exact Laws.EncodeMatchesRow.slli ..
  | srli => exact Laws.EncodeMatchesRow.srli ..
  | srai => exact Laws.EncodeMatchesRow.srai ..
  | lb => exact Laws.EncodeMatchesRow.lb ..
  | lh => exact Laws.EncodeMatchesRow.lh ..
  | lw => exact Laws.EncodeMatchesRow.lw ..
  | lbu => exact Laws.EncodeMatchesRow.lbu ..
  | lhu => exact Laws.EncodeMatchesRow.lhu ..
  | sb => exact Laws.EncodeMatchesRow.sb ..
  | sh => exact Laws.EncodeMatchesRow.sh ..
  | sw => exact Laws.EncodeMatchesRow.sw ..
  | beq => exact Laws.EncodeMatchesRow.beq ..
  | bne => exact Laws.EncodeMatchesRow.bne ..
  | blt => exact Laws.EncodeMatchesRow.blt ..
  | bge => exact Laws.EncodeMatchesRow.bge ..
  | bltu => exact Laws.EncodeMatchesRow.bltu ..
  | bgeu => exact Laws.EncodeMatchesRow.bgeu ..
  | lui => exact Laws.EncodeMatchesRow.lui ..
  | jal => exact Laws.EncodeMatchesRow.jal ..
  | ecall => exact Laws.EncodeMatchesRow.ecall

/-- No two rows have one mnemonic. -/
theorem row_eq_of_mnemonic {r r' : OpRow} (hr : r ∈ opcodeRows) (hr' : r' ∈ opcodeRows)
    (h : r.mnemonic = r'.mnemonic) : r = r' :=
  List.inj_on_of_nodup_map (by decide : (opcodeRows.map OpRow.mnemonic).Nodup) hr hr' h

/-- Settles O6: a decoded word is its instruction's own encoding, which that instruction's row accepts; an accepted word decodes
to the row's mnemonic, and no two rows share one. -/
theorem supportedWordsAreTheTableRows : Obligations.SupportedWordsAreTheTableRows := by
  refine ⟨rfl, fun w => ⟨⟨fun ⟨i, hi⟩ => ?accepted, fun ⟨r, hr, h⟩ => ?decodes⟩,
    fun i hi r hr => ⟨fun h => ?own, fun h => ?only⟩⟩⟩
  case accepted =>
    obtain ⟨r, hr, -, h⟩ := row_accepts_encode i
    exact ⟨r, hr, (encodeInvertsDecode w i hi).1 ▸ h⟩
  case decodes =>
    obtain ⟨i, hi, -⟩ := decodesAs_of_accepts hr h
    exact ⟨i, hi⟩
  case own =>
    obtain ⟨i', hi', hname⟩ := decodesAs_of_accepts hr h
    cases hi.symm.trans hi'
    exact hname.symm
  case only =>
    obtain ⟨r', hr', hname, hacc⟩ := row_accepts_encode i
    obtain rfl := row_eq_of_mnemonic hr hr' (h.trans hname.symm)
    exact (encodeInvertsDecode w i hi).1 ▸ hacc

/-! ### The unsupported space -/

/-- The decoder's answer is a refusal. -/
def Refused (x : Except Reject Instr) : Prop := ∃ r, x = .error r

@[simp] theorem not_refused_ok (i : Instr) : ¬Refused (.ok i) := by rintro ⟨r, h⟩; cases h

@[simp] theorem refused_error (r : Reject) : Refused (.error r) := ⟨r, rfl⟩

section
variable (f7 : BitVec 7) (f3 : BitVec 3) (rd rs1 rs2 : RegIdx) (imm : Word)

theorem refused_identifyR_iff : Refused (identifyR f7 f3 rd rs1 rs2) ↔
    ¬(f7 = 0b0000000#7 ∨ f7 = 0b0100000#7 ∧ (f3 = 0b000#3 ∨ f3 = 0b101#3)) := by
  rcases identifyR_cases f7 f3 rd rs1 rs2 with ⟨h7, hbase⟩ | ⟨h7, h3, he⟩ | ⟨h7, h3, he⟩ | ⟨h7, h3, he⟩
  · rcases hbase with ⟨-, he⟩ | ⟨-, he⟩ | ⟨-, he⟩ | ⟨-, he⟩ | ⟨-, he⟩ | ⟨-, he⟩ | ⟨-, he⟩ | ⟨-, he⟩ <;>
      rw [he] <;> simp [h7]
  · rw [he]; simp [h7, h3]
  · rw [he]; simp [h7, h3]
  · simpa [he, h7] using h3

theorem refused_identifyImm_iff : Refused (identifyImm f3 rd rs1 imm) ↔
    f3 = 0b001#3 ∧ imm.extractLsb' 5 7 ≠ 0b0000000#7 ∨
      f3 = 0b101#3 ∧ imm.extractLsb' 5 7 ≠ 0b0000000#7 ∧ imm.extractLsb' 5 7 ≠ 0b0100000#7 := by
  rcases identifyImm_cases f3 rd rs1 imm with
    ⟨h3, he⟩ | ⟨h3, he⟩ | ⟨h3, he⟩ | ⟨h3, he⟩ | ⟨h3, he⟩ | ⟨h3, he⟩ | ⟨h3, hshift⟩ | ⟨h3, hshift⟩
  iterate 6 · rw [he]; simp [h3]
  · rcases hshift with ⟨hu, he⟩ | ⟨hu, he⟩ <;> rw [he] <;> simp [h3, hu]
  · rcases hshift with ⟨hu, he⟩ | ⟨hu, he⟩ | ⟨hu, hu', he⟩
    · rw [he]; simp [h3, hu]
    · rw [he]; simp [h3, hu]
    · rw [he]; simp [h3, hu, hu']

theorem refused_identifyLoad_iff :
    Refused (identifyLoad f3 rd rs1 imm) ↔ f3 = 0b011#3 ∨ f3 = 0b110#3 ∨ f3 = 0b111#3 := by
  rcases identifyLoad_cases f3 rd rs1 imm with ⟨h3, he⟩ | ⟨h3, he⟩ | ⟨h3, he⟩ | ⟨h3, he⟩ | ⟨h3, he⟩ | ⟨h3, he⟩
  iterate 5 · rw [he]; simp [h3]
  simpa [he] using h3

theorem refused_identifyStore_iff :
    Refused (identifyStore f3 rs1 rs2 imm) ↔ f3 ∉ [0b000#3, 0b001#3, 0b010#3] := by
  rcases identifyStore_cases f3 rs1 rs2 imm with ⟨h3, he⟩ | ⟨h3, he⟩ | ⟨h3, he⟩ | ⟨h3, he⟩
  iterate 3 · rw [he]; simp [h3]
  simpa [he] using h3

theorem refused_identifyBranch_iff :
    Refused (identifyBranch f3 rs1 rs2 imm) ↔ f3 = 0b010#3 ∨ f3 = 0b011#3 := by
  rcases identifyBranch_cases f3 rs1 rs2 imm with
    ⟨h3, he⟩ | ⟨h3, he⟩ | ⟨h3, he⟩ | ⟨h3, he⟩ | ⟨h3, he⟩ | ⟨h3, he⟩ | ⟨h3, he⟩
  iterate 6 · rw [he]; simp [h3]
  simpa [he] using h3

end

/-- Settles O7: by major opcode, each clause is what that opcode's part of the decoder refuses. -/
theorem unsupportedSpaceIsComplete : Obligations.UnsupportedSpaceIsComplete := by
  intro w op f3 f7
  change Refused (decodeInstr w) ↔ _
  obtain ⟨hop, h3, h7⟩ : op = opcodeOf w ∧ f3 = funct3Of w ∧ f7 = funct7Of w := ⟨rfl, rfl, rfl⟩
  rw [decodeInstr_eq, hop, h3, h7]
  split_ifs with hR hI hL hS hB hU hJ hE hecall
  · simp [refused_identifyR_iff, hR]
  · simp [refused_identifyImm_iff, upper_immI, hI]
  · simp [refused_identifyLoad_iff, hL]
  · simp [refused_identifyStore_iff, hS]
  · simp [refused_identifyBranch_iff, hB]
  · simp [hU]
  · simp [hJ]
  · simpa [hE] using (system_fields_zero_iff hE).1 hecall
  · simpa [hE] using mt (system_fields_zero_iff hE).2 hecall
  · simp [hR, hI, hL, hS, hB, hU, hJ, hE]

end Sys2Proof.Encoding
end

section
/-! PROOFS. The ALU and the nineteen ALU instructions (41_alu_reg.md R140 to R150, 42_alu_imm.md R160 to R169). -/

namespace Sys2Proof.Machine

/-! ### The ten operations in integers -/

/-- The low five bits, as a number. -/
theorem shiftAmount_eq_mod (b : Word) : shiftAmount b = b.toNat % 32 := by
  rw [shiftAmount, BitVec.extractLsb'_toNat]; rfl

/-- A 5-bit shift amount is taken whole. -/
theorem shiftAmount_shiftOperand (shamt : BitVec 5) : shiftAmount (shiftOperand shamt) = shamt.toNat := by
  have := shamt.isLt
  rw [shiftAmount_eq_mod, shiftOperand, zext, BitVec.toNat_setWidth]
  omega

theorem bool32_decide (p : Prop) [Decidable p] : bool32 (decide p) = if p then 1#32 else 0#32 := by
  by_cases hp : p <;> simp [bool32, hp]

section
variable (a b : Word)

@[simp] theorem alu_add : alu .add a b = a + b := rfl
@[simp] theorem alu_sub : alu .sub a b = a - b := rfl
@[simp] theorem alu_xor : alu .xor a b = a ^^^ b := rfl
@[simp] theorem alu_or : alu .or a b = a ||| b := rfl
@[simp] theorem alu_and : alu .and a b = a &&& b := rfl
@[simp] theorem alu_sll : alu .sll a b = a <<< shiftAmount b := rfl
@[simp] theorem alu_srl : alu .srl a b = a >>> shiftAmount b := rfl
@[simp] theorem alu_sra : alu .sra a b = a.sshiftRight (shiftAmount b) := rfl
@[simp] theorem alu_slt : alu .slt a b = if a.toInt < b.toInt then 1#32 else 0#32 := bool32_decide _
@[simp] theorem alu_sltu : alu .sltu a b = if a.toNat < b.toNat then 1#32 else 0#32 := bool32_decide _

end

/-- Settles O9: each operation in integers, the shifts by the low five bits of the second operand. -/
theorem aluComputesTheTenOperations : Obligations.AluComputesTheTenOperations := by
  intro a b
  refine ⟨BitVec.toNat_add a b, ?sub, ?sll, alu_slt a b, alu_sltu a b, ?srl, ?sra, fun i hi => ⟨?xor, ?or, ?and⟩⟩
  case sub => rw [alu_sub, BitVec.toNat_sub, Nat.add_comm]
  case sll => rw [alu_sll, BitVec.toNat_shiftLeft, Nat.shiftLeft_eq, shiftAmount_eq_mod]
  case srl => rw [alu_srl, BitVec.toNat_ushiftRight, Nat.shiftRight_eq_div_pow, shiftAmount_eq_mod]
  case sra => rw [alu_sra, BitVec.toInt_sshiftRight, Int.shiftRight_eq_div_pow, shiftAmount_eq_mod]; rfl
  case xor => exact BitVec.getLsbD_xor
  case or => exact BitVec.getLsbD_or
  case and => exact BitVec.getLsbD_and

/-! ### The register-register instructions, one by one -/

/-- Settles O12: both run `aluReg`, whose result is the sum or the difference. -/
theorem addAndSubResults : Obligations.AddAndSubResults :=
  fun rd rs1 rs2 s => ⟨aluReg_completes .add rd rs1 rs2 s, aluReg_completes .sub rd rs1 rs2 s⟩

/-- Settles O13: the amount is the low five bits of x[rs2]. -/
theorem shiftResults : Obligations.ShiftResults := by
  intro rd rs1 rs2 s n
  have hn : n = shiftAmount (s.readReg rs2) := (shiftAmount_eq_mod _).symm
  rw [hn]
  exact ⟨aluReg_completes .sll rd rs1 rs2 s, aluReg_completes .srl rd rs1 rs2 s, aluReg_completes .sra rd rs1 rs2 s⟩

/-- Settles O14: `bool32` is the 1 or 0 of the comparison. -/
theorem setLessThanResults : Obligations.SetLessThanResults := by
  intro rd rs1 rs2 s
  rw [← alu_slt, ← alu_sltu]
  exact ⟨aluReg_completes .slt rd rs1 rs2 s, aluReg_completes .sltu rd rs1 rs2 s⟩

/-- Settles O15: all three run `aluReg`. -/
theorem logicalResults : Obligations.LogicalResults :=
  fun rd rs1 rs2 s =>
    ⟨aluReg_completes .xor rd rs1 rs2 s, aluReg_completes .or rd rs1 rs2 s, aluReg_completes .and rd rs1 rs2 s⟩

/-! ### The register-immediate instructions, one by one -/

theorem aluImm_completes (op : AluOp) (rd rs1 : RegIdx) (b : Word) (s : State) :
    CompletesWriting (aluImm op rd rs1 b s) s rd (alu op (s.readReg rs1) b) (s.pc + 4#32) := writeback_completes ..

/-- Settles O17: as O12 and O14, the immediate the second operand. -/
theorem addAndCompareImmediateResults : Obligations.AddAndCompareImmediateResults := by
  intro rd rs1 imm s
  rw [← alu_slt, ← alu_sltu]
  exact ⟨aluImm_completes .add rd rs1 imm s, aluImm_completes .slt rd rs1 imm s, aluImm_completes .sltu rd rs1 imm s⟩

/-- Settles O18: all three run `aluImm` on the immediate as it is. -/
theorem logicalImmediateResults : Obligations.LogicalImmediateResults :=
  fun rd rs1 imm s =>
    ⟨aluImm_completes .xor rd rs1 imm s, aluImm_completes .or rd rs1 imm s, aluImm_completes .and rd rs1 imm s⟩

/-- Settles O19: the operand is the amount itself, below 32. -/
theorem shiftImmediateResults : Obligations.ShiftImmediateResults := by
  intro rd rs1 shamt s
  rw [← shiftAmount_shiftOperand shamt]
  exact ⟨aluImm_completes .sll rd rs1 _ s, aluImm_completes .srl rd rs1 _ s, aluImm_completes .sra rd rs1 _ s⟩

/-! ### The register-immediate instructions from the word on -/

/-- The nine mnemonics of opcode 0x13, each with its ALU operation. -/
def aluImmMnemonics : List (String × AluOp) :=
  [("ADDI", .add), ("SLTI", .slt), ("SLTIU", .sltu), ("XORI", .xor), ("ORI", .or), ("ANDI", .and), ("SLLI", .sll),
    ("SRLI", .srl), ("SRAI", .sra)]

/-- funct3 of the shifts by an immediate. -/
def IsShiftFunct3 (f3 : BitVec 3) : Prop := f3 = 0b001#3 ∨ f3 = 0b101#3

/-- What an instruction of opcode 0x13 does: `op` on x[rs1] and `b`, under the mnemonic of `op`. -/
def RunsAluImm (i : Instr) (op : AluOp) (rd rs1 : RegIdx) (b : Word) : Prop :=
  (i.mnemonic, op) ∈ aluImmMnemonics ∧ ∀ s, exec i s = aluImm op rd rs1 b s

/-- Everything R91 and R95 accept: an operation on the immediate, or a shift by its low five bits, the upper seven then 0000000
or, for SRAI, 0100000. -/
theorem identifyImm_ok_inv {f3 : BitVec 3} {rd rs1 : RegIdx} {imm : Word} {i : Instr}
    (h : identifyImm f3 rd rs1 imm = .ok i) :
    (¬IsShiftFunct3 f3 ∧ i.mnemonic ∈ ["ADDI", "SLTI", "SLTIU", "XORI", "ORI", "ANDI"] ∧
      ∃ op, RunsAluImm i op rd rs1 imm) ∨
    (IsShiftFunct3 f3 ∧ (imm.extractLsb' 5 7 = 0b0000000#7 ∧ i.mnemonic ∈ ["SLLI", "SRLI"] ∨
        imm.extractLsb' 5 7 = 0b0100000#7 ∧ i.mnemonic = "SRAI") ∧
      ∃ op, RunsAluImm i op rd rs1 (shiftOperand (imm.extractLsb' 0 5))) := by
  rcases identifyImm_cases f3 rd rs1 imm with
    ⟨rfl, he⟩ | ⟨rfl, he⟩ | ⟨rfl, he⟩ | ⟨rfl, he⟩ | ⟨rfl, he⟩ | ⟨rfl, he⟩ |
    ⟨rfl, ⟨hu, he⟩ | ⟨-, he⟩⟩ | ⟨rfl, ⟨hu, he⟩ | ⟨hu, he⟩ | ⟨-, -, he⟩⟩
  all_goals cases h.symm.trans he
  · refine .inl ⟨?_, ?_, .add, ?_, fun _ => rfl⟩ <;> simp [IsShiftFunct3, Instr.mnemonic, aluImmMnemonics]
  · refine .inl ⟨?_, ?_, .slt, ?_, fun _ => rfl⟩ <;> simp [IsShiftFunct3, Instr.mnemonic, aluImmMnemonics]
  · refine .inl ⟨?_, ?_, .sltu, ?_, fun _ => rfl⟩ <;> simp [IsShiftFunct3, Instr.mnemonic, aluImmMnemonics]
  · refine .inl ⟨?_, ?_, .xor, ?_, fun _ => rfl⟩ <;> simp [IsShiftFunct3, Instr.mnemonic, aluImmMnemonics]
  · refine .inl ⟨?_, ?_, .or, ?_, fun _ => rfl⟩ <;> simp [IsShiftFunct3, Instr.mnemonic, aluImmMnemonics]
  · refine .inl ⟨?_, ?_, .and, ?_, fun _ => rfl⟩ <;> simp [IsShiftFunct3, Instr.mnemonic, aluImmMnemonics]
  · refine .inr ⟨.inl rfl, .inl ⟨hu, ?_⟩, .sll, ?_, fun _ => rfl⟩ <;> simp [Instr.mnemonic, aluImmMnemonics]
  · refine .inr ⟨.inr rfl, .inl ⟨hu, ?_⟩, .srl, ?_, fun _ => rfl⟩ <;> simp [Instr.mnemonic, aluImmMnemonics]
  · exact .inr ⟨.inr rfl, .inr ⟨hu, rfl⟩, .sra, by simp [Instr.mnemonic, aluImmMnemonics], fun _ => rfl⟩

/-- The shift amount is w[24:20] (R91). -/
theorem shamt_immI (w : Word) : (immI w).extractLsb' 0 5 = w.extractLsb' 20 5 := by
  rw [immI, extract_sext _ 0 5 (by decide) (by decide)]
  ext i hi
  simp [show i < 12 by omega]

/-- Settles O16: an accepted word is one of the nine by `identifyImm_ok_inv`, and the refused ones are those of R101 (c). -/
theorem registerImmediateCommonBehaviour : Obligations.RegisterImmediateCommonBehaviour := by
  intro w hop f3 f7 shift
  have hdecode := Encoding.decodeInstr_of_opcode_imm hop
  have refused : f3 = 0b001#3 ∧ f7 ≠ 0b0000000#7 ∨ f3 = 0b101#3 ∧ f7 ≠ 0b0000000#7 ∧ f7 ≠ 0b0100000#7 →
      ∃ r, decodeInstr w = .error r := fun h => by
    rw [hdecode]
    exact (Encoding.refused_identifyImm_iff ..).2 (by rwa [Encoding.upper_immI])
  refine ⟨fun i hi => ?_, fun h3 h7 => refused (.inl ⟨h3, h7⟩), fun h3 h7 h7' => refused (.inr ⟨h3, h7, h7'⟩)⟩
  rw [hdecode] at hi
  rcases identifyImm_ok_inv hi with ⟨hshift, hname, op, hmem, hrun⟩ | ⟨hshift, hname, op, hmem, hrun⟩
  · exact ⟨fun h => absurd h hshift, fun _ => hname, op, immI w, hmem, fun h => absurd h hshift, fun _ => rfl,
      fun s => hrun s ▸ aluImm_completes ..⟩
  · rw [Encoding.upper_immI] at hname
    exact ⟨fun _ => hname, fun h => absurd hshift h, op, _, hmem, fun _ => by rw [shamt_immI]; rfl,
      fun h => absurd hshift h, fun s => hrun s ▸ aluImm_completes ..⟩

end Sys2Proof.Machine
end

section
/-! PROOFS. What loads and stores give, width by width (43_load.md, 44_store.md, 20_memory.md R53 to R60). -/

namespace Sys2Proof.Machine

/-! ### The bytes of a read, put together -/

/-- One more byte of a little-endian value goes below the others (R53). -/
theorem ofNat_leValue_succ (m : Memory) (a n : Nat) :
    BitVec.ofNat (8 * n + 8) (m.leValue a (n + 1)) = BitVec.ofNat (8 * n) (m.leValue (a + 1) n) ++ m.byte a := by
  have hbyte := (m.byte a).isLt
  have hrest : m.leValue (a + 1) n < 2 ^ (8 * n) := by simpa [Nat.pow_mul] using leValue_lt m (a + 1) n
  apply BitVec.eq_of_toNat_eq
  rw [BitVec.toNat_append, BitVec.toNat_ofNat, BitVec.toNat_ofNat, Nat.mod_eq_of_lt hrest,
    ← Nat.shiftLeft_add_eq_or_of_lt hbyte, Nat.shiftLeft_eq, Memory.leValue, Nat.mod_eq_of_lt]
  · omega
  · rw [Nat.pow_add]; omega

section
variable (m : Memory) (a : Nat)

theorem ofNat_leValue_one : BitVec.ofNat 8 (m.leValue a 1) = m.byte a := by
  apply BitVec.eq_of_toNat_eq
  simp [Memory.leValue]

theorem ofNat_leValue_two : BitVec.ofNat 16 (m.leValue a 2) = m.byte (a + 1) ++ m.byte a := by
  rw [← ofNat_leValue_one m (a + 1)]
  exact ofNat_leValue_succ m a 1

/-- The four bytes of a word read from memory, the lowest address least significant (R53, R66). -/
theorem ofNat_leValue_four : BitVec.ofNat 32 (m.leValue a 4) =
    m.byte (a + 3) ++ m.byte (a + 2) ++ m.byte (a + 1) ++ m.byte a := by
  have h2 := ofNat_leValue_two m (a + 2)
  have h3 : BitVec.ofNat 24 (m.leValue (a + 1) 3) = m.byte (a + 3) ++ m.byte (a + 2) ++ m.byte (a + 1) :=
    h2 ▸ ofNat_leValue_succ m (a + 1) 2
  exact h3 ▸ ofNat_leValue_succ m a 3

end

/-! ### Loads -/

/-- A load whose MemRead returned `v` writes `v` widened. -/
theorem load_completes_of_read {width : Width} {rs1 : RegIdx} {imm v : Word} {s : State}
    (h : memRead s.mem (effectiveAddress s rs1 imm) width = .ok v) (ext : Widening) (rd : RegIdx) :
    CompletesWriting (load width ext rd rs1 imm s) s rd (widen ext width v) (s.pc + 4#32) := by
  rw [load, h]
  exact writeback_completes rd _ s

/-- Settles O21: the value of one byte, widened. -/
theorem byteLoadResults : Obligations.ByteLoadResults := by
  intro rd rs1 imm s a h
  have hbyte : (BitVec.ofNat 32 (s.mem.leValue a 1)).setWidth 8 = s.mem.byte a :=
    (BitVec.setWidth_ofNat_of_le (by decide) _).trans (ofNat_leValue_one s.mem a)
  have hread : memRead s.mem (effectiveAddress s rs1 imm) .byte = _ := memRead_of_le h
  rw [← hbyte]
  exact ⟨load_completes_of_read hread .sign rd, load_completes_of_read hread .zero rd⟩

/-- Settles O22: the value of two bytes, widened. -/
theorem halfwordLoadResults : Obligations.HalfwordLoadResults := by
  intro rd rs1 imm s a v h
  have hhalf : (BitVec.ofNat 32 (s.mem.leValue a 2)).setWidth 16 = v :=
    (BitVec.setWidth_ofNat_of_le (by decide) _).trans (ofNat_leValue_two s.mem a)
  have hread : memRead s.mem (effectiveAddress s rs1 imm) .half = _ := memRead_of_le h
  rw [← hhalf]
  exact ⟨load_completes_of_read hread .sign rd, load_completes_of_read hread .zero rd⟩

/-- Settles O23: the value of four bytes, as it is. -/
theorem wordLoadResult : Obligations.WordLoadResult := by
  intro rd rs1 imm s a v h
  rw [show v = _ from (ofNat_leValue_four s.mem a).symm]
  exact load_completes_of_read (width := .word) (memRead_of_le h) .asIs rd

/-! ### Stores -/

/-- Settles O25: `store_completes` at each width. -/
theorem storeResults : Obligations.StoreResults :=
  fun rs1 rs2 imm s hs =>
    ⟨rfl, fun h => store_completes .byte rs1 rs2 imm s hs.1 h, fun h => store_completes .half rs1 rs2 imm s hs.1 h,
      fun h => store_completes .word rs1 rs2 imm s hs.1 h⟩

/-- Settles O26: what is not admitted faults, of every load and store. -/
theorem accessOutOfBoundsFaults : Obligations.AccessOutOfBoundsFaults := by
  intro rd rs1 rs2 imm s ea
  have out {width : Width} (h : s.mem.size < ea.toNat + width.bytes) : ¬Admitted s (effectiveAddress s rs1 imm) width :=
    Nat.not_le.2 h
  have ld width ext (h : s.mem.size < ea.toNat + width.bytes) :=
    load_of_not_admitted width ext rd rs1 imm s (out h)
  have st width (h : s.mem.size < ea.toNat + width.bytes) := store_of_not_admitted width rs1 rs2 imm s (out h)
  exact ⟨fun h => ⟨ld .byte .sign h, ld .byte .zero h, st .byte h⟩, fun h => ⟨ld .half .sign h, ld .half .zero h, st .half h⟩,
    fun h => ⟨ld .word .asIs h, st .word h⟩⟩

/-! ### A load right after a store -/

/-- Reading back the bytes just stored gives the low bytes of the value stored. -/
theorem memRead_storeBytes_same {m : Memory} (hw : m.wf) {addr : Word} {width : Width} (v : Word)
    (hin : addr.toNat + width.bytes ≤ m.size) :
    memRead (m.storeBytes addr.toNat v width.bytes) addr width =
      .ok ((v.setWidth (8 * width.bytes)).setWidth 32) := by
  have hvalue : (m.storeBytes addr.toNat v width.bytes).leValue addr.toNat width.bytes =
      v.toNat / 256 ^ 0 % 256 ^ width.bytes :=
    leValue_of_bytes _ v _ 0 _ fun k hk => by
      rw [Nat.zero_add]; exact byte_storeBytes_inside m addr.toNat v width.bytes k hw hin hk
  rw [memRead_of_le (by rwa [storeBytes_size]), hvalue]
  congr 1
  apply BitVec.eq_of_toNat_eq
  simp [Nat.pow_mul]

/-- A load from the address and of the width of the store that led here writes what was stored, widened. -/
theorem load_after_store {width : Width} {rs1 rs2 : RegIdx} {imm : Word} {s t : State} (hs : s.Inv)
    (h : store width rs1 rs2 imm s = .next t) (ext : Widening) (rd : RegIdx) :
    CompletesWriting (load width ext rd rs1 imm t) t rd
      (widen ext width (((s.readReg rs2).setWidth (8 * width.bytes)).setWidth 32)) (t.pc + 4#32) := by
  rcases store_cases width rs1 rs2 imm s with ⟨hin, he⟩ | ⟨-, he⟩
  · cases he.symm.trans h
    exact load_completes_of_read (memRead_storeBytes_same hs.1 (s.readReg rs2) hin) ext rd
  · cases he.symm.trans h

theorem setWidth_low_word {n : Nat} (h : n ≤ 32) (v : BitVec n) : (v.setWidth 32).setWidth n = v := by
  rw [BitVec.setWidth_setWidth_of_le v h, BitVec.setWidth_eq]

/-- Settles O27: each load widens the low bytes its store put there. -/
theorem loadAfterStoreReturnsTheBytes : Obligations.LoadAfterStoreReturnsTheBytes := by
  intro rd rs1 rs2 imm s t hs v
  refine ⟨fun h => ?byte, fun h => ?half, fun h => ?word⟩
  case byte =>
    rw [← setWidth_low_word (by decide) (v.setWidth 8)]
    exact ⟨load_after_store hs h .sign rd, load_after_store hs h .zero rd⟩
  case half =>
    rw [← setWidth_low_word (by decide) (v.setWidth 16)]
    exact ⟨load_after_store hs h .sign rd, load_after_store hs h .zero rd⟩
  case word =>
    have hv : (v.setWidth 32).setWidth 32 = v := by rw [BitVec.setWidth_eq, BitVec.setWidth_eq]
    exact hv ▸ load_after_store hs h .asIs rd

end Sys2Proof.Machine
end

section
/-! PROOFS. Branches, LUI, JAL and ECALL (45_branch.md, 46_lui.md, 47_jal.md, 48_system.md). -/

namespace Sys2Proof.Machine

/-! ### Branches -/

/-- A branch whose condition is the proposition `p` goes to its target if `p`, else to pc + 4. -/
theorem branch_completes_ite {c : Cond} {rs1 rs2 : RegIdx} {s : State} {p : Prop} [Decidable p]
    (hc : condHolds c (s.readReg rs1) (s.readReg rs2) = decide p) (off : Word) :
    CompletesJumping (branch c rs1 rs2 off s) s (if p then s.pc + off else s.pc + 4#32) := by
  have htarget : branchTarget (decide p) s.pc off = if p then s.pc + off else s.pc + 4#32 := by
    by_cases hp : p <;> simp [branchTarget, hp]
  rw [← htarget, ← hc]
  exact branch_completes c rs1 rs2 off s

/-- The same for a condition that is the negation of `p`. -/
theorem branch_completes_ite_not {c : Cond} {rs1 rs2 : RegIdx} {s : State} {p : Prop} [Decidable p]
    (hc : condHolds c (s.readReg rs1) (s.readReg rs2) = decide (¬p)) (off : Word) :
    CompletesJumping (branch c rs1 rs2 off s) s (if p then s.pc + 4#32 else s.pc + off) := by
  rw [← ite_not]
  exact branch_completes_ite hc off

/-- Settles O32: the conditions are equality and its negation. -/
theorem branchEqualityResults : Obligations.BranchEqualityResults :=
  fun _ _ off _ =>
    ⟨branch_completes_ite (c := .eq) rfl off, branch_completes_ite (c := .ne) decide_not.symm off⟩

/-- Settles O33: `ge` is the negation of `lt`, on signed values. -/
theorem branchSignedResults : Obligations.BranchSignedResults :=
  fun _ _ off _ =>
    ⟨branch_completes_ite (c := .lt) rfl off, branch_completes_ite_not (c := .ge) (decide_eq_decide.2 Int.not_lt.symm) off⟩

/-- Settles O34: `geu` is the negation of `ltu`, on unsigned values. -/
theorem branchUnsignedResults : Obligations.BranchUnsignedResults :=
  fun _ _ off _ =>
    ⟨branch_completes_ite (c := .ltu) rfl off, branch_completes_ite_not (c := .geu) (decide_eq_decide.2 Nat.not_lt.symm) off⟩

/-! ### LUI -/

/-- Settles O35: a word of the opcode decodes to LUI of its imm_U, which is the word with its low twelve bits cleared. -/
theorem loadUpperImmediateResult : Obligations.LoadUpperImmediateResult := by
  refine ⟨fun rd imm s => writeback_completes rd imm s, fun w s hop => ?_⟩
  rw [stepWord_of_ok (Encoding.decodeInstr_of_opcode_lui hop), ← Encoding.immU_eq_and]
  exact writeback_completes _ _ s

/-- What is left of a constant without its sign-extended low twelve bits is a multiple of 4096. -/
theorem fitsUpper_sub_low12 (C : Word) : fitsUpper (C - sext (C.extractLsb' 0 12)) = true := by
  have hC := C.isLt
  have hlow : (sext (C.extractLsb' 0 12)).toNat % 4096 = C.toNat % 4096 := by
    have h := congrArg BitVec.toNat (extract_sext (C.extractLsb' 0 12) 0 12 (by decide) (by decide))
    simpa [BitVec.extractLsb'_toNat] using h
  rw [fitsUpper, decide_eq_true_eq, BitVec.toNat_sub]
  have hlt := (sext (C.extractLsb' 0 12)).isLt
  omega

/-- Settles O36: LUI leaves C - lo in rd and ADDI adds lo. -/
theorem luiThenAddiBuildsAnyConstant : Obligations.LuiThenAddiBuildsAnyConstant := by
  intro C rd s hrd lo
  obtain ⟨t, ht, ⟨-, hval, hother⟩, ⟨hsize, hbyte⟩, hpc, -⟩ := writeback_completes rd (C - lo) s
  obtain ⟨u, hu, ⟨-, hval', hother'⟩, ⟨hsize', hbyte'⟩, hpc', -⟩ := aluImm_completes .add rd rd lo t
  refine ⟨fitsUpper_sub_low12 C, fits12_sext _, t, u, ht, hu, ?value, fun r hr => (hother' r hr).trans (hother r hr),
    ⟨hsize'.trans hsize, fun a => (hbyte' a).trans (hbyte a)⟩, ?pc⟩
  case value => rw [hval' hrd, alu_add, hval hrd, BitVec.sub_add_cancel]
  case pc => rw [hpc', hpc, BitVec.add_assoc]; rfl

/-! ### JAL and ECALL -/

/-- Settles O37: the link write and the jump both start from the pre-state. -/
theorem jumpAndLinkResult : Obligations.JumpAndLinkResult :=
  fun rd _ s => ⟨_, rfl, writesReg_writeReg s rd (s.pc + 4#32), sameMemory_of_mem_eq (writeReg_mem ..), rfl, rfl⟩

/-- Settles O38: ECALL sets the pc and the event and nothing else. -/
theorem ecallResult : Obligations.EcallResult :=
  fun _ => ⟨_, rfl, fun _ => rfl, sameMemory_of_mem_eq rfl, rfl, rfl⟩

end Sys2Proof.Machine
end

section
/-! PROOFS. The fetch and the run-step (20_memory.md R66), and the words placed or stored where the next fetch reads (R273). -/

namespace Sys2Proof.Machine

/-- A fetch in bounds is the four bytes at the pc, the lowest address least significant. -/
theorem fetch_of_le {s : State} (h : s.pc.toNat + 4 ≤ s.mem.size) :
    fetch s = .ok (s.mem.byte (s.pc.toNat + 3) ++ s.mem.byte (s.pc.toNat + 2) ++ s.mem.byte (s.pc.toNat + 1) ++
      s.mem.byte s.pc.toNat) := by
  rw [← ofNat_leValue_four]
  exact memRead_of_le h

theorem step_of_fetch {s : State} {w : Word} (h : fetch s = .ok w) : step s = stepWord w s := by
  rw [step, runStep, h]

/-- Settles O41: the fetch, then the decoded instruction. -/
theorem stepRunsTheDecodedInstruction : Obligations.StepRunsTheDecodedInstruction :=
  fun s _ hin hdecode => (step_of_fetch (fetch_of_le hin)).trans (stepWord_of_ok hdecode s)

/-- Settles O42: a fetch out of bounds is the fault of its read; an unsupported word is its own fault. -/
theorem stepFaultsBeforeExecuting : Obligations.StepFaultsBeforeExecuting := by
  refine fun s => ⟨fun hout => ?outside, fun hin => ?unsupported⟩
  case outside =>
    rcases step_cases s with ⟨w, hw, -⟩ | ⟨-, he⟩
    · cases hw.symm.trans (memRead_of_gt hout)
    · exact he
  case unsupported =>
    intro w r hr
    exact (step_of_fetch (fetch_of_le hin)).trans (stepWord_of_error hr s)

/-- A word stored at the pc is the word fetched there. -/
theorem fetch_of_storedWord {s t : State} (hs : s.Inv) {v : Word} (hin : t.pc.toNat + 4 ≤ s.mem.size)
    (hmem : t.mem = s.mem.storeBytes t.pc.toNat v 4) : fetch t = .ok v := by
  rw [fetch, hmem]
  refine (memRead_storeBytes_same (width := .word) hs.1 v hin).trans (congrArg Except.ok ?_)
  exact (BitVec.setWidth_eq _).trans (BitVec.setWidth_eq v)

theorem tableWord_toNat (w : Word) : tableWord 32 w.toNat = w := by
  rw [tableWord, Nat.mod_eq_of_lt w.isLt, BitVec.ofNat_toNat, BitVec.setWidth_eq]

/-- Settles O43: the word is stored at the pc, where the next fetch reads it, and a store touches its own bytes alone. -/
theorem placedWordIsTheNextOneRun : Obligations.PlacedWordIsTheNextOneRun := by
  intro s w hs hin s'
  have hplace : s' = { s with mem := s.mem.storeBytes s.pc.toNat w 4 } := by
    change placeFetchWord s (tableWord 32 w.toNat) = _
    rw [tableWord_toNat, placeFetchWord, memWrite_of_le hin]
    rfl
  clear_value s'
  subst hplace
  exact ⟨step_of_fetch (fetch_of_storedWord hs hin rfl), fun _ => rfl, rfl, rfl, storeBytes_size ..,
    fun b hb => byte_storeBytes_outside _ _ _ _ b hb⟩

/-- Settles O44: after the store the pc is the address stored to. -/
theorem storeIsSeenByTheNextFetch : Obligations.StoreIsSeenByTheNextFetch := by
  intro s t rs1 rs2 imm hs hea h
  rcases store_cases .word rs1 rs2 imm s with ⟨hin, he⟩ | ⟨-, he⟩
  · cases he.symm.trans h
    rw [hea] at hin ⊢
    exact step_of_fetch (fetch_of_storedWord hs hin rfl)
  · cases he.symm.trans h

end Sys2Proof.Machine
end

section
/-! PROOFS. The instruction rules and the control table driving the datapath agree (40_decoder_block.md R125). -/

namespace Sys2Proof.Machine

theorem load_eq_datapath (width : Width) (ext : Widening) (rd rs1 : RegIdx) (imm : Word) (s : State) :
    load width ext rd rs1 imm s = datapath (controlLoad width ext rd rs1 imm) s := by
  simp only [load, datapath, controlLoad, sourceB, Option.map_some, Option.getD_some, alu_add, effectiveAddress]
  cases memRead s.mem (s.readReg rs1 + imm) width <;> rfl

theorem store_eq_datapath (width : Width) (rs1 rs2 : RegIdx) (imm : Word) (s : State) :
    store width rs1 rs2 imm s = datapath (controlStore width rs1 rs2 imm) s := by
  simp only [store, datapath, controlStore, sourceB, Option.map_some, Option.getD_some, alu_add, effectiveAddress]
  cases memWrite s.mem (s.readReg rs1 + imm) width (s.readReg rs2) <;> rfl

/-- Settles O10: outside the LSU both sides compute to the same state; a load and a store make the same access. -/
theorem execAgreesWithControlTable : Obligations.ExecAgreesWithControlTable := by
  intro i s
  cases i with
  | lb | lh | lw | lbu | lhu => exact load_eq_datapath ..
  | sb | sh | sw => exact store_eq_datapath ..
  | add | sub | sll | slt | sltu | xor | srl | sra | or | and => rfl
  | addi | slti | sltiu | xori | ori | andi | slli | srli | srai => rfl
  | beq | bne | blt | bge | bltu | bgeu => rfl
  | lui | jal | ecall => rfl

end Sys2Proof.Machine
end

section
/-! PROOFS. What the environment writes out of band, and reset (10_state.md R36, R38, R270; 70_reset_and_hazards.md R273). -/

namespace Sys2Proof.Machine

theorem sameRegs_of_regs_eq {s t : State} (h : t.regs = s.regs) : SameRegs s t := fun r => by
  simp only [State.readReg, h]

/-! ### Bytes set one after another -/

theorem byte_pokeByte_other (s : State) (a : Nat) (v : Byte) {b : Nat} (h : b ≠ a) :
    (s.pokeByte a v).mem.byte b = s.mem.byte b := by
  unfold State.pokeByte
  split
  · exact byte_setByte_other _ _ _ _ h
  · rfl

/-- A byte that the list does not name is as before. -/
theorem byte_pokeBytes_other (s : State) (l : List Host.Cell) {b : Nat} (h : ∀ c ∈ l, b ≠ c.1) :
    (s.pokeBytes l).mem.byte b = s.mem.byte b := by
  induction l generalizing s with
  | nil => rfl
  | cons c rest ih =>
    exact (ih _ fun d hd => h d (List.mem_cons_of_mem _ hd)).trans (byte_pokeByte_other s c.1 c.2 (h c List.mem_cons_self))

/-- A byte inside the memory holds the last value the list gives it, or its old one. -/
theorem byte_pokeBytes (s : State) (l : List Host.Cell) (hw : s.mem.wf) {b : Nat} (hb : b < s.mem.size) :
    (s.pokeBytes l).mem.byte b = ((l.reverse.find? (fun p => p.1 == b)).map Prod.snd).getD (s.mem.byte b) := by
  induction l generalizing s with
  | nil => rfl
  | cons c rest ih =>
    obtain ⟨a, v⟩ := c
    rw [State.pokeBytes, ih _ (pokeByte_wf s a v hw) (by rwa [pokeByte_size]), byte_pokeByte s a b v hw, List.reverse_cons,
      List.find?_append]
    cases rest.reverse.find? (fun p => p.1 == b) with
    | some p => rfl
    | none =>
      by_cases hab : a = b
      · simp [hab, hb]
      · simp [hab, Ne.symm hab]

/-! ### Words set one after another -/

/-- The four cells of a word at `a`, least significant byte first. -/
def wordCells (a : Nat) (w : Word) : List Host.Cell :=
  [(a, byteOf w 0), (a + 1, byteOf w 1), (a + 2, byteOf w 2), (a + 3, byteOf w 3)]

theorem pokeWords_cons_wordCells (s : State) (a : Nat) (w : Word) (ws : List Word) :
    s.pokeWords a (w :: ws) = (s.pokeBytes (wordCells a w)).pokeWords (a + 4) ws := rfl

theorem byte_wordCells_inside (s : State) (a : Nat) (w : Word) (hw : s.mem.wf) {k : Nat} (hk : k < 4)
    (hb : a + k < s.mem.size) : (s.pokeBytes (wordCells a w)).mem.byte (a + k) = byteOf w k := by
  rw [byte_pokeBytes s _ hw hb]
  rcases k with _ | _ | _ | _ | k
  iterate 4 simp [wordCells]
  omega

theorem byte_wordCells_outside (s : State) (a : Nat) (w : Word) {b : Nat} (h : b < a ∨ a + 4 ≤ b) :
    (s.pokeBytes (wordCells a w)).mem.byte b = s.mem.byte b := by
  refine byte_pokeBytes_other s _ fun c hc => ?_
  simp only [wordCells, List.mem_cons, List.not_mem_nil, or_false] at hc
  rcases hc with rfl | rfl | rfl | rfl <;> dsimp only <;> omega

/-- Bytes on both sides of a placed program are as before. -/
theorem byte_pokeWords_outside (s : State) (a : Nat) (ws : List Word) {b : Nat} (h : b < a ∨ a + 4 * ws.length ≤ b) :
    (s.pokeWords a ws).mem.byte b = s.mem.byte b := by
  induction ws generalizing s a with
  | nil => rfl
  | cons w rest ih =>
    rw [List.length_cons] at h
    rw [pokeWords_cons_wordCells, ih _ _ (by omega), byte_wordCells_outside s a w (by omega)]

/-- Byte k of the i-th word placed lies at a + 4 * i + k: the words after it do not reach it. -/
theorem byte_pokeWords_inside (s : State) (a : Nat) (ws : List Word) (hw : s.mem.wf) {i : Nat} {w : Word}
    (hi : ws[i]? = some w) {k : Nat} (hk : k < 4) (hb : a + 4 * i + k < s.mem.size) :
    (s.pokeWords a ws).mem.byte (a + 4 * i + k) = byteOf w k := by
  induction ws generalizing s a i with
  | nil => cases hi
  | cons x rest ih =>
    rw [pokeWords_cons_wordCells]
    cases i with
    | zero =>
      obtain rfl : x = w := Option.some.inj hi
      rw [Nat.mul_zero, Nat.add_zero] at hb ⊢
      rw [byte_pokeWords_outside _ _ _ (by omega)]
      exact byte_wordCells_inside s a x hw hk hb
    | succ i =>
      have haddr : a + 4 * (i + 1) + k = a + 4 + 4 * i + k := by omega
      rw [haddr] at hb ⊢
      exact ih _ _ (pokeBytes_wf s _ hw) hi (by rwa [pokeBytes_size])

/-! ### The obligations -/

/-- A change of memory alone keeps the invariant if it keeps the canonical form and the size. -/
theorem inv_of_mem_wf {s t : State} (hs : s.Inv) (hregs : t.regs = s.regs) (hwf : t.mem.wf)
    (hsize : t.mem.size = s.mem.size) : t.Inv := by
  obtain ⟨-, ⟨hpos, hmax⟩, hzero⟩ := hs
  exact ⟨hwf, ⟨hpos.trans_eq hsize.symm, hsize.trans_le hmax⟩, by simp only [hregs, hzero]⟩

/-- Settles O59: each kind of write by its own laws; a list of bytes and a program by induction on the list. -/
theorem outOfBandWritesKeepTheInvariant : Obligations.OutOfBandWritesKeepTheInvariant := by
  intro s hs
  have hw := hs.1
  refine ⟨fun r v => ?reg, writeReg_zero s, fun v => ⟨hs, rfl, fun _ => rfl, rfl, rfl⟩, fun a v => ?byte, fun l => ?bytes,
    fun a ws => ?words⟩
  case reg =>
    exact ⟨(inv_of_same_mem hs (writeReg_mem ..) (writeReg_cell_zero ..)).1, writesReg_writeReg s r v, writeReg_pc ..,
      writeReg_mem .., writeReg_ecall ..⟩
  case byte =>
    refine ⟨inv_of_mem_wf hs (pokeByte_regs ..) (pokeByte_wf s a v hw) (pokeByte_size ..),
      sameRegs_of_regs_eq (pokeByte_regs ..), pokeByte_pc .., pokeByte_ecall .., pokeByte_size .., fun ha => ?_,
      fun ha => if_neg (Nat.not_lt.2 ha), fun b hb => byte_pokeByte_other s a v hb⟩
    rw [byte_pokeByte s a a v hw, if_pos ⟨rfl, ha⟩]
  case bytes =>
    exact ⟨inv_of_mem_wf hs (pokeBytes_regs ..) (pokeBytes_wf s l hw) (pokeBytes_size ..),
      sameRegs_of_regs_eq (pokeBytes_regs ..), pokeBytes_pc .., pokeBytes_ecall .., pokeBytes_size ..,
      fun b hb => byte_pokeBytes s l hw hb⟩
  case words =>
    exact ⟨inv_of_mem_wf hs (pokeWords_regs ..) (pokeWords_wf s a ws hw) (pokeWords_size ..),
      sameRegs_of_regs_eq (pokeWords_regs ..), pokeWords_pc .., pokeWords_ecall .., pokeWords_size ..,
      fun i w hi k hk hb => byte_pokeWords_inside s a ws hw hi hk hb, fun b hb => byte_pokeWords_outside s a ws hb⟩

/-- The state reset starts from, before MEM_INIT is written: every cell 0x00. -/
def blankState (c : Config) : State :=
  { regs := c.resetX.set 0 0#32, pc := c.resetPc, mem := { size := c.memSize, cells := [] }, ecall := false }

theorem blankState_inv {c : Config} (hc : c.wf) : (blankState c).Inv :=
  ⟨⟨List.Pairwise.nil, nofun⟩, hc, Vector.getElem_set_self _⟩

theorem blankState_readReg (c : Config) {r : RegIdx} (hr : r ≠ 0#5) :
    (blankState c).readReg r = c.resetX[r.toNat]'r.isLt := by
  have hne : 0 ≠ r.toNat := fun e => hr (BitVec.eq_of_toNat_eq e.symm)
  rw [State.readReg, if_neg hr]
  exact Vector.getElem_set_ne (by decide) r.isLt hne

/-- Settles O52: reset is MEM_INIT written into the blank state, byte by byte as any out-of-band write. -/
theorem resetLoadsTheParameters : Obligations.ResetLoadsTheParameters := by
  intro c hc s
  have hinv := blankState_inv hc
  have hregs : s.regs = (blankState c).regs := pokeBytes_regs ..
  exact ⟨inv_of_mem_wf hinv hregs (pokeBytes_wf _ _ hinv.1) (pokeBytes_size ..), readReg_zero s,
    fun r hr => (sameRegs_of_regs_eq hregs r).trans (blankState_readReg c hr), pokeBytes_pc .., pokeBytes_size ..,
    pokeBytes_ecall .., fun a ha => byte_pokeBytes (blankState c) c.memInit hinv.1 ha⟩

theorem reset_eq_resetWith_default : State.reset = State.resetWith Config.default := by decide

/-- Settles O51: the default parameters are zeros, and MEM_INIT is empty. -/
theorem resetStateIsZeroAndMeetsTheInvariant : Obligations.ResetStateIsZeroAndMeetsTheInvariant := by
  obtain ⟨hinv, -, hregs, -⟩ := resetLoadsTheParameters Config.default (by decide)
  rw [← reset_eq_resetWith_default] at hinv hregs
  refine ⟨hinv, fun r => ?_, rfl, fun _ => rfl, rfl, rfl, reset_eq_resetWith_default⟩
  by_cases hr : r = 0#5
  · rw [hr, readReg_zero]
  · rw [hregs r hr]
    exact Vector.getElem_replicate _

end Sys2Proof.Machine
end

section
/-! PROOFS. The end of a run (20_memory.md R67). -/

namespace Sys2Proof.Machine

theorem step_next_or_fault (s : State) : (∃ t, step s = .next t) ∨ ∃ f, step s = .fault f := by
  rcases step_cases s with ⟨w, -, he⟩ | ⟨-, he⟩
  · rw [he]; exact stepWord_next_or_fault w s
  · exact .inr ⟨_, he⟩

/-- A step that raised the event was ECALL, so the pc is past it. -/
theorem step_pc_of_ecall {s t : State} (h : step s = .next t) (ht : t.ecall = true) : t.pc = s.pc + 4#32 := by
  obtain ⟨w, -, hw⟩ := step_next_inv h
  obtain ⟨i, -, hi⟩ := stepWord_next_inv hw
  obtain rfl := (exec_ecall_iff hi).1 ht
  cases hi
  rfl

/-- A run that is not over goes on from the state it reached. -/
theorem runProgram_add {k : Nat} {s u : State} (h : runProgram k s = .outOfSteps u) (n : Nat) :
    runProgram (k + n) s = runProgram n u := by
  induction k generalizing s with
  | zero => cases h; rw [Nat.zero_add]
  | succ k ih =>
    rw [Nat.succ_add]
    rcases step_next_or_fault s with ⟨t, ht⟩ | ⟨f, hf⟩
    · rw [runProgram_next _ _ _ ht] at h ⊢
      cases hecall : t.ecall
      · rw [hecall] at h
        exact ih h
      · rw [hecall] at h
        cases h
    · rw [runProgram_fault _ _ _ hf] at h
      cases h

section
variable {k : Nat} {s u : State} (h : runProgram k s = .outOfSteps u)
include h

theorem runProgram_of_fault {f : Fault} (hf : step u = .fault f) {n : Nat} (hn : k < n) : runProgram n s = .atFault f u := by
  obtain ⟨m, rfl⟩ := Nat.exists_eq_add_of_lt hn
  rw [Nat.add_assoc, runProgram_add h, runProgram_fault _ _ _ hf]

theorem runProgram_of_ecall {t : State} (ht : step u = .next t) (hecall : t.ecall = true) {n : Nat} (hn : k < n) :
    runProgram n s = .atEcall t := by
  obtain ⟨m, rfl⟩ := Nat.exists_eq_add_of_lt hn
  rw [Nat.add_assoc, runProgram_add h, runProgram_next _ _ _ ht, if_pos hecall]

theorem runProgram_of_quiet {t : State} (ht : step u = .next t) (hecall : t.ecall = false) :
    runProgram (k + 1) s = .outOfSteps t := by
  rw [runProgram_add h, runProgram_next _ _ _ ht, hecall]
  rfl

end

/-- The first `n` run-steps from `s` were all taken, without fault and without event. -/
def TookQuietSteps (n : Nat) (s : State) : Prop :=
  ∀ k, k < n → ∃ v t, runProgram k s = .outOfSteps v ∧ step v = .next t ∧ t.ecall = false ∧
    runProgram (k + 1) s = .outOfSteps t

/-- Every way a run can end, with the step that ended it. -/
theorem runProgram_cases (n : Nat) (s : State) :
    (∃ u, runProgram n s = .outOfSteps u ∧ TookQuietSteps n s) ∨
    (∃ k u f, k < n ∧ runProgram k s = .outOfSteps u ∧ step u = .fault f ∧ runProgram n s = .atFault f u) ∨
    (∃ k u t, k < n ∧ runProgram k s = .outOfSteps u ∧ step u = .next t ∧ t.ecall = true ∧ runProgram n s = .atEcall t) := by
  induction n with
  | zero => exact .inl ⟨s, rfl, nofun⟩
  | succ n ih =>
    rcases ih with ⟨u, hu, hquiet⟩ | ⟨k, u, f, hk, hu, hf, -⟩ | ⟨k, u, t, hk, hu, ht, hecall, -⟩
    · rcases step_next_or_fault u with ⟨t, ht⟩ | ⟨f, hf⟩
      · cases hecall : t.ecall
        · have hnext := runProgram_of_quiet hu ht hecall
          refine .inl ⟨t, hnext, fun k hk => ?_⟩
          rcases Nat.lt_succ_iff_lt_or_eq.1 hk with hk | rfl
          · exact hquiet k hk
          · exact ⟨u, t, hu, ht, hecall, hnext⟩
        · exact .inr (.inr ⟨n, u, t, n.lt_succ_self, hu, ht, hecall, runProgram_of_ecall hu ht hecall n.lt_succ_self⟩)
      · exact .inr (.inl ⟨n, u, f, n.lt_succ_self, hu, hf, runProgram_of_fault hu hf n.lt_succ_self⟩)
    · have hkn := Nat.lt_succ_of_lt hk
      exact .inr (.inl ⟨k, u, f, hkn, hu, hf, runProgram_of_fault hu hf hkn⟩)
    · have hkn := Nat.lt_succ_of_lt hk
      exact .inr (.inr ⟨k, u, t, hkn, hu, ht, hecall, runProgram_of_ecall hu ht hecall hkn⟩)

/-- Settles O58: forward by going on from the state reached, conversely by every way a run can end. -/
theorem runEndsAtTheFirstFaultOrEcall : Obligations.RunEndsAtTheFirstFaultOrEcall := by
  refine fun s => ⟨rfl, fun k u hu => ⟨fun f hf n hn => runProgram_of_fault hu hf hn,
    fun t ht hecall n hn => runProgram_of_ecall hu ht hecall hn, fun t ht hecall => runProgram_of_quiet hu ht hecall⟩,
    fun n => ?converse⟩
  rcases runProgram_cases n s with ⟨u, hn, hquiet⟩ | ⟨k, u, f, hk, hu, hf, hn⟩ | ⟨k, u, t, hk, hu, ht, hecall, hn⟩
  · rw [hn]
    exact ⟨nofun, nofun, fun _ _ => hquiet, nofun⟩
  · rw [hn]
    refine ⟨fun f' u' he => ?_, nofun, nofun, nofun⟩
    cases he
    exact ⟨hf, k, hk, hu⟩
  · rw [hn]
    refine ⟨nofun, fun t' he => ?_, nofun, nofun⟩
    cases he
    exact ⟨hecall, u, k, hk, hu, ht, step_pc_of_ecall ht hecall⟩

end Sys2Proof.Machine
end
